-- ==== Sys2Proof/Word.lean ====
section
/-! DEFINITION. The plainest data: a bit, a pin table, and the names of the engine's parts. -/

namespace Sys2Proof

/-- One bit (R14); a pin is a bit by type, so no other pin value can be configured (R85, D26). -/
abbrev Bit := Bool

/-- A rotor's pin sequence in position order, position 0 first (R8, R14): the read-only table `PINS_r`. -/
abbrev PinTable := List Bit

/-- The two banks of an engine (R2). -/
inductive BankId where
  | psi
  | chi
deriving DecidableEq, Repr

/-- The rotors of an engine (R8): `controlA` (alias M61), `controlB` (alias M37, R25), and the members of the
two banks by index, index 0 first. Which indices exist depends on the configuration. -/
inductive RotorId where
  | controlA
  | controlB
  | psi (i : Nat)
  | chi (i : Nat)
deriving DecidableEq, Repr

end Sys2Proof
end

