-- ==== Sys2Proof/Config.lean ====
section
/-! DEFINITION. The configuration record of R7 to R11: what the caller supplies, when it is well formed, and the
one value the spec leaves free. -/

namespace Sys2Proof

/-- What the caller supplies at construction (R7 to R9, R61), well formed or not. -/
structure RawCfg where
  /-- `DATA_W`, the width of the code input (R9). -/
  dataW    : Nat
  controlA : PinTable
  controlB : PinTable
  /-- The members of `bankPsi`, index 0 first (R8). -/
  bankPsi  : List PinTable
  /-- The members of `bankChi`, index 0 first (R8). -/
  bankChi  : List PinTable
deriving DecidableEq, Repr

/-- `WF(Cfg)` (R10): `K >= 1`, `DATA_W >= 1`, both banks of `K` rotors, every rotor of length at least 1.
(That every pin is 0 or 1 holds by type.) -/
abbrev RawCfg.WF (c : RawCfg) : Prop :=
  1 ≤ c.bankPsi.length ∧ c.bankChi.length = c.bankPsi.length ∧ 1 ≤ c.dataW ∧
  1 ≤ c.controlA.length ∧ 1 ≤ c.controlB.length ∧
  (∀ t ∈ c.bankPsi, 1 ≤ t.length) ∧ (∀ t ∈ c.bankChi, 1 ≤ t.length)

/-- A configuration of this hardware: `Cfg` together with its proof of `WF(Cfg)` (R10). -/
structure Cfg where
  raw : RawCfg
  wf  : raw.WF
deriving DecidableEq, Repr

/-- `K`, the number of rotors in each bank and the width of the key (R7). -/
def Cfg.k (c : Cfg) : Nat := c.raw.bankPsi.length

/-- `DATA_W` (R9). -/
def Cfg.dataW (c : Cfg) : Nat := c.raw.dataW

/-- `RW = max(DATA_W, K)`, the width of the result (R9). -/
def Cfg.rw (c : Cfg) : Nat := max c.dataW c.k

/-- The causes of `InvalidConfiguration` (R136), under the spec's names `IC_EMPTY_ROTOR(r)`, `IC_EMPTY_BANK(b)`,
`IC_WIDTH_MISMATCH` and `IC_BAD_WIDTH`. -/
inductive ConfigCause where
  | emptyRotor (r : RotorId)
  | emptyBank (b : BankId)
  | widthMismatch
  | badWidth
deriving DecidableEq, Repr

/-- The free value of U8: what `result_o`, `w` bits wide, carries in the `n`-th step that is no `ENG.PROCESS`.
It has no body: nothing can be proved of it (log entry 6). -/
opaque Config.freeResult (w n : Nat) : BitVec w

/-- The spec's test configuration T2 with `DATA_W = 7` (T2w of 95_test_vectors.md section 2), as raw data. -/
def Config.t2w : RawCfg where
  dataW    := 7
  controlA := [true, true, false, true, false, false, true]
  controlB := [true, false, true, true, false]
  bankPsi  := [[true, false, false, true, true, false, true], [false, true, true],
               [true, true, false, true, false], [false, false, true, false],
               [true, false, true, false, true, true]]
  bankChi  := [[false, true, true, false, true], [true, false, false], [true, true, false, true],
               [false, true], [true, false, false, true, false, true, true]]

/-- The configuration `State.reset` is written for. The spec leaves the configuration to the caller (R11):
DESIGN CHOICE, log entry 2; every statement is for every `Cfg`. -/
def Config.reference : Cfg := ⟨Config.t2w, by decide⟩

end Sys2Proof
end

