-- ==== Sys2Proof/Machine/State.lean ====
section
/-! DEFINITION. The state of one engine (R20), why a step can stop, and the states at power-on and after reset. -/

namespace Sys2Proof.Machine

/-- Why the machine faults. -/
inductive Fault where
  /-- A rotor's register holds no position in `[0, N_r)` (R17, R22, R43, U2, D25): raised by every read of a
  position and of a pin, so by every operation that reads that rotor. Safe: no state a run reaches has it. -/
  | positionOutOfRange
deriving DecidableEq, Repr

/-- Why the model gives a command no meaning. -/
inductive Refusal where
  /-- An instruction without a meaning, by its mnemonic: raised by no arm of `exec`. Safe. -/
  | notModelled (mnemonic : String)
  /-- `InvalidConfiguration` (R135, R136): raised by elaboration, never by a command. Safe: no engine exists. -/
  | invalidConfiguration (cause : ConfigCause)
  /-- A read of a position register before the first reset, when it holds no value (R32, R128): raised by every
  operation that reads a position, `ENG.PROCESS` among them. Safe. -/
  | beforeReset
  /-- The rotor named does not exist in the configuration (R8): raised by the `ROTOR.*` operations on an ill-formed
  operand. Safe: no port of that name exists. -/
  | noSuchRotor (r : RotorId)
  /-- The code has more than `DATA_W` bits (R9, R66): raised by `ENG.PROCESS` on an ill-formed operand. Safe: no
  command word carries it. -/
  | codeTooWide
  /-- The word given has more bits than the engine's port (R60, R61): raised by `step`. Safe. -/
  | wordTooWide
deriving DecidableEq, Repr

/-- The `2K + 2` position registers (R20). A register that holds none has no value yet: the power-on marker of R32
and R34. -/
structure Positions where
  controlA : Option Nat
  controlB : Option Nat
  psi      : List (Option Nat)
  chi      : List (Option Nat)
deriving DecidableEq, Repr

/-- What an operation drove on its output format (R60, R65), with the width of the format. -/
inductive Output where
  /-- The operation has no output of its own. -/
  | silent
  /-- `ROTOR_OUT` of rotor `r`, one bit. -/
  | rotorOut (r : RotorId) (pin : Bit)
  /-- `BANK_OUT` of bank `b`, `width` bits. -/
  | bankOut (b : BankId) (width : Nat) (comb : BitVec width)
  /-- `ENG_NET`, the key, `width` bits. -/
  | engNet (width : Nat) (key : BitVec width)
  /-- `ENG_OUT`, `result_o`, `width` bits. -/
  | engOut (width : Nat) (result : BitVec width)
deriving DecidableEq, Repr

/-- The state of the model. `pos` is the hardware's whole state (R20); `cfg` is the argument of the model, which no
operation writes (R23, log entry 1); `inputs`, `out` and `draws` are the model's own (log entries 3, 5 and 6). -/
structure State where
  cfg    : Cfg
  pos    : Positions
  /-- The host's command words still to be given at the engine's port, oldest first. -/
  inputs : List Nat
  /-- What the last operation drove on its output. -/
  out    : Output
  /-- How many free values of `result_o` have been drawn. -/
  draws  : Nat
deriving DecidableEq, Repr

/-- An engine just built, before its first reset: no position register holds a value (R32, R157). -/
def State.powerOn (c : Cfg) : State where
  cfg    := c
  pos    := ⟨none, none, List.replicate c.raw.bankPsi.length none, List.replicate c.raw.bankChi.length none⟩
  inputs := []
  out    := .silent
  draws  := 0

/-- An engine of configuration `c` right after reset: every position 0 (R31, R156). -/
def State.resetOf (c : Cfg) : State where
  cfg    := c
  pos    := ⟨some 0, some 0, List.replicate c.raw.bankPsi.length (some 0),
             List.replicate c.raw.bankChi.length (some 0)⟩
  inputs := []
  out    := .silent
  draws  := 0

/-- The machine right after reset (R31), for the configuration of log entry 2. -/
def State.reset : State := State.resetOf Config.reference

end Sys2Proof.Machine
end

