-- ==== Sys2Proof/Machine/Ops.lean ====
section
/-! DEFINITION. The named operations over pin tables and position registers (R20, R40, R52, R80 to R83, R91, R93),
and the one exception of the hardware, raised at elaboration (R135, R136). -/

namespace Sys2Proof.Machine

/-- A value read from the machine, or why there is none. -/
abbrev Answer (α : Type) := Host.Outcome α Fault Refusal

/-- `a ; b` (R15): go on with the value, or stop for the same reason. -/
def andThen {α β : Type} (x : Answer α) (f : α → Answer β) : Answer β :=
  match x with
  | .next a    => f a
  | .fault e   => .fault e
  | .refused e => .refused e

/-! ### Tables and registers by name -/

/-- The pin table of a rotor of raw data, none where there is no such rotor (R8). -/
def rawTable? (c : RawCfg) : RotorId → Option PinTable
  | .controlA => some c.controlA
  | .controlB => some c.controlB
  | .psi i    => c.bankPsi[i]?
  | .chi i    => c.bankChi[i]?

/-- `PINS_r` (R8, R40). -/
def table? (c : Cfg) (r : RotorId) : Option PinTable := rawTable? c.raw r

/-- The pin tables of a bank's members, index 0 first (R2, R8). -/
def bankTables (c : Cfg) : BankId → List PinTable
  | .psi => c.raw.bankPsi
  | .chi => c.raw.bankChi

/-- The register `pos[r]` (R20, R21). -/
def reg? (g : Positions) : RotorId → Option (Option Nat)
  | .controlA => some g.controlA
  | .controlB => some g.controlB
  | .psi i    => g.psi[i]?
  | .chi i    => g.chi[i]?

/-- `pos[r] <- v` (R15): a write to one register changes no other (R21). -/
def setReg (g : Positions) (r : RotorId) (v : Option Nat) : Positions :=
  match r with
  | .controlA => { g with controlA := v }
  | .controlB => { g with controlB := v }
  | .psi i    => { g with psi := g.psi.set i v }
  | .chi i    => { g with chi := g.chi.set i v }

/-- The registers of a bank's members, index 0 first. -/
def bankRegs (g : Positions) : BankId → List (Option Nat)
  | .psi => g.psi
  | .chi => g.chi

/-- Write every register of a bank. -/
def setBankRegs (g : Positions) (b : BankId) (qs : List (Option Nat)) : Positions :=
  match b with
  | .psi => { g with psi := qs }
  | .chi => { g with chi := qs }

/-- The pin table and the register of rotor `r` (R80). -/
def rotorOf (c : Cfg) (g : Positions) (r : RotorId) : Answer (PinTable × Option Nat) :=
  match table? c r with
  | none   => .refused (.noSuchRotor r)
  | some t =>
    match reg? g r with
    | none   => .fault .positionOutOfRange
    | some q => .next (t, q)

/-! ### One rotor cell -/

/-- Read a position register of a rotor with table `t`: refused while it has no value (R32, R128), a fault where
the value is no index into the table (R22, R43, U2). -/
def readPos (t : PinTable) (q : Option Nat) : Answer Nat :=
  match q with
  | none   => .refused .beforeReset
  | some p => if p < t.length then .next p else .fault .positionOutOfRange

/-- `PinRead(r, p)` (R52): the bit at `p`, not defined for `p >= N_r`. -/
def pinRead (t : PinTable) (p : Nat) : Answer Bit :=
  match t[p]? with
  | some b => .next b
  | none   => .fault .positionOutOfRange

/-- `currentPin()` (R80). -/
def currentPin (t : PinTable) (q : Option Nat) : Answer Bit := andThen (readPos t q) (pinRead t)

/-- The increment of R16 (a): `(p + 1) mod N`. -/
def nextPos (n p : Nat) : Nat := (p + 1) % n

/-- `advance()` of a rotor (R81). -/
def advanceReg (t : PinTable) (q : Option Nat) : Answer (Option Nat) :=
  andThen (readPos t q) fun p => .next (some (nextPos t.length p))

/-- The position after construction (R83): 0, from whatever the register held. -/
def resetReg : Option Nat := some 0

/-- The pin of rotor `r` in the positions `g`: the net `pin[r]` (R24). -/
def rotorPin (c : Cfg) (g : Positions) (r : RotorId) : Answer Bit :=
  andThen (rotorOf c g r) fun tq => currentPin tq.1 tq.2

/-- `ROTOR.ADV r` on the positions (R81). -/
def advanceRotor (c : Cfg) (r : RotorId) (g : Positions) : Answer Positions :=
  andThen (rotorOf c g r) fun tq => andThen (advanceReg tq.1 tq.2) fun q => .next (setReg g r q)

/-- `ROTOR.HOLD r` on the positions (R82). -/
def holdRotor (c : Cfg) (r : RotorId) (g : Positions) : Answer Positions :=
  andThen (rotorOf c g r) fun tq => .next (setReg g r tq.2)

/-- `ROTOR.RESET r` on the positions (R83). -/
def resetRotor (c : Cfg) (r : RotorId) (g : Positions) : Answer Positions :=
  andThen (rotorOf c g r) fun _ => .next (setReg g r resetReg)

/-! ### The members of a bank, index 0 first -/

/-- The current pins of the members (R90). -/
def memberPins : List PinTable → List (Option Nat) → Answer (List Bit)
  | [], []           => .next []
  | t :: ts, q :: qs => andThen (currentPin t q) fun b => andThen (memberPins ts qs) fun bs => .next (b :: bs)
  | [], _ :: _       => .fault .positionOutOfRange
  | _ :: _, []       => .fault .positionOutOfRange

/-- Advance every member (R91). -/
def advanceMembers : List PinTable → List (Option Nat) → Answer (List (Option Nat))
  | [], []           => .next []
  | t :: ts, q :: qs => andThen (advanceReg t q) fun v => andThen (advanceMembers ts qs) fun vs => .next (v :: vs)
  | [], _ :: _       => .fault .positionOutOfRange
  | _ :: _, []       => .fault .positionOutOfRange

/-- `BANK.ADV b` on the positions (R91). -/
def advanceBank (c : Cfg) (b : BankId) (g : Positions) : Answer Positions :=
  andThen (advanceMembers (bankTables c b) (bankRegs g b)) fun qs => .next (setBankRegs g b qs)

/-- `BANK.HOLD b` on the positions: `ROTOR.HOLD` on every member (R92). -/
def holdBank (b : BankId) (g : Positions) : Positions := setBankRegs g b (bankRegs g b)

/-- `BANK.RESET b` on the positions: every one of the `K` members to 0 (R93). -/
def resetBank (c : Cfg) (b : BankId) (g : Positions) : Positions :=
  setBankRegs g b ((bankTables c b).map fun _ => resetReg)

/-- Reset of the whole engine (R123, R155): both control rotors and both banks. -/
def resetAll (c : Cfg) (g : Positions) : Positions :=
  resetBank c .chi (resetBank c .psi (setReg (setReg g .controlA resetReg) .controlB resetReg))

/-! ### The one exception -/

/-- `clog2(n)`: the least `w` with `2^w >= n` (R21, G3). -/
def clog2 (n : Nat) : Nat := if n ≤ 1 then 0 else Nat.log2 (n - 1) + 1

/-- `PW_r = clog2(N_r)`: the physical width of the position register of a rotor with this table (R21, D9). -/
def positionWidth (t : PinTable) : Nat := clog2 t.length

/-- The rotors of raw data in the order of R136: A, B, the members of Psi, the members of Chi. -/
def rawRotors (c : RawCfg) : List RotorId :=
  [.controlA, .controlB] ++ (List.range c.bankPsi.length).map .psi ++ (List.range c.bankChi.length).map .chi

/-- The cause reported for an ill-formed configuration: the first that applies, in the order of R136; the last row
when none before it does. -/
def configCause (c : RawCfg) : ConfigCause :=
  match (rawRotors c).find? fun r => rawTable? c r == some [] with
  | some r => .emptyRotor r
  | none =>
    if c.bankPsi = [] then .emptyBank .psi
    else if c.bankChi = [] then .emptyBank .chi
    else if c.bankPsi.length ≠ c.bankChi.length then .widthMismatch
    else .badWidth

/-- `raise InvalidConfiguration(cause)` (R15, R135): no engine, no state, nothing saved and nothing to return to
(R140, R141). It is the hardware's only exception. -/
def raiseInvalidConfiguration (cause : ConfigCause) : Answer State := .refused (.invalidConfiguration cause)

/-- Elaboration (R19, R135, R158): build the engine, in its power-on state, or refuse the configuration. -/
def elaborate (c : RawCfg) : Answer State :=
  if h : c.WF then .next (State.powerOn ⟨c, h⟩) else raiseInvalidConfiguration (configCause c)

end Sys2Proof.Machine
end

