-- ==== Sys2Proof/Machine/Operands.lean ====
section
/-! DEFINITION. How operands and outputs are put together (R42, R66): the bank's bit order, the key, and the
exclusive or of code and key at the result's width. -/

namespace Sys2Proof.Machine

/-- The aggregator's loop (R90): for each pin, index 0 first, `acc = (acc << 1) or pin`, in `k` bits. -/
def packPins (k : Nat) (pins : List Bit) : BitVec k :=
  pins.foldl (fun acc pin => (acc <<< 1) ||| (BitVec.ofBool pin).setWidth k) 0

/-- `combinedPins()` (R90): the net `psiComb` or `chiComb` (R24), `K` bits. -/
def bankComb (c : Cfg) (g : Positions) (b : BankId) : Answer (BitVec c.k) :=
  andThen (memberPins (bankTables c b) (bankRegs g b)) fun pins => .next (packPins c.k pins)

/-- `deriveKey()` (R100): the net `key`, `K` bits. -/
def deriveKey (c : Cfg) (g : Positions) : Answer (BitVec c.k) :=
  andThen (bankComb c g .psi) fun psiComb => andThen (bankComb c g .chi) fun chiComb => .next (psiComb ^^^ chiComb)

/-- `zext_RW(code)` (R66): the code as it stands, unsigned, at the result's width. -/
def codeOperand (c : Cfg) (code : Nat) : BitVec c.rw := (BitVec.ofNat c.dataW code).setWidth c.rw

/-- `zext_RW(key)` (R66). -/
def keyOperand (c : Cfg) (key : BitVec c.k) : BitVec c.rw := key.setWidth c.rw

/-- `result = zext_RW(code) xor zext_RW(key)` (R120, R121). -/
def maskCode (c : Cfg) (code : Nat) (key : BitVec c.k) : BitVec c.rw := codeOperand c code ^^^ keyOperand c key

end Sys2Proof.Machine
end

