-- ==== Sys2Proof/Machine/Bank.lean ====
section
/-! DEFINITION. The rotor bank's operations (41_rotor_bank.md, R90 to R93). -/

namespace Sys2Proof.Machine

/-- `BANK.COMB b` (R90): drive the combined value; write nothing. -/
def execBankComb (b : BankId) (s : State) : Host.Outcome State Fault Refusal :=
  andThen (bankComb s.cfg s.pos b) fun comb => .next { s with out := .bankOut b s.cfg.k comb }

/-- `BANK.ADV b` (R91): every member advances. -/
def execBankAdv (b : BankId) (s : State) : Host.Outcome State Fault Refusal :=
  andThen (advanceBank s.cfg b s.pos) fun g => .next { s with pos := g, out := .silent }

/-- `BANK.HOLD b` (R92): no member moves. -/
def execBankHold (b : BankId) (s : State) : Host.Outcome State Fault Refusal :=
  .next { s with pos := holdBank b s.pos, out := .silent }

/-- `BANK.RESET b` (R93): every member to 0, from any state. -/
def execBankReset (b : BankId) (s : State) : Host.Outcome State Fault Refusal :=
  .next { s with pos := resetBank s.cfg b s.pos, out := .silent }

end Sys2Proof.Machine
end

