-- ==== Sys2Proof/Machine/Flags.lean ====
section
/-! DEFINITION. The two predicates of the stepping protocol (R27): no flag is stored, both are nets. -/

namespace Sys2Proof.Machine

/-- `mA`, the current pin of `controlA` (R24): gates the advance of `controlB`. -/
def mA (c : Cfg) (g : Positions) : Answer Bit := rotorPin c g .controlA

/-- `mB`, the current pin of `controlB` (R24): gates the advance of `bankPsi`. -/
def mB (c : Cfg) (g : Positions) : Answer Bit := rotorPin c g .controlB

end Sys2Proof.Machine
end

