-- ==== Sys2Proof/Syntax.lean ====
section
/-! DEFINITION. The thirteen operations of R72, one constructor per row of spec/opcode_table.json. -/

namespace Sys2Proof

/-- An operation with its operands. `ROTOR.*` names the rotor cell it acts on and `BANK.*` the bank, because one
port exists for each (R60, R69). `code` is the unsigned number on `code_i` (R66). -/
inductive Instr where
  /-- `ROTOR.PIN r` (R80). -/
  | rotorPin (r : RotorId)
  /-- `ROTOR.ADV r` (R81). -/
  | rotorAdv (r : RotorId)
  /-- `ROTOR.HOLD r` (R82). -/
  | rotorHold (r : RotorId)
  /-- `ROTOR.RESET r` (R83). -/
  | rotorReset (r : RotorId)
  /-- `BANK.COMB b` (R90). -/
  | bankComb (b : BankId)
  /-- `BANK.ADV b` (R91). -/
  | bankAdv (b : BankId)
  /-- `BANK.HOLD b` (R92). -/
  | bankHold (b : BankId)
  /-- `BANK.RESET b` (R93). -/
  | bankReset (b : BankId)
  /-- `ENG.KEY` (R100). -/
  | engKey
  /-- `ENG.STEP` (R105). -/
  | engStep
  /-- `ENG.PROCESS code` (R120). -/
  | engProcess (code : Nat)
  /-- `ENG.IDLE` (R122). -/
  | engIdle
  /-- `ENG.RESET` (R123). -/
  | engReset
deriving DecidableEq, Repr

end Sys2Proof
end

