-- ==== Sys2Proof/WellFormed.lean ====
section
/-! DEFINITION. When an operation is one this configuration of the hardware has. -/

namespace Sys2Proof

/-- `r` is one of the `2K + 2` rotors of the configuration (R8). -/
def RotorId.existsIn (c : Cfg) : RotorId → Bool
  | .controlA => true
  | .controlB => true
  | .psi i    => decide (i < c.k)
  | .chi i    => decide (i < c.k)

/-- `code` is an unsigned number of `DATA_W` bits (R66). -/
def codeFits (c : Cfg) (code : Nat) : Bool := decide (code < 2 ^ c.dataW)

/-- An operation the configuration has: its rotor exists, its code fits the code input. -/
def Instr.wf (c : Cfg) : Instr → Bool
  | .rotorPin r      => r.existsIn c
  | .rotorAdv r      => r.existsIn c
  | .rotorHold r     => r.existsIn c
  | .rotorReset r    => r.existsIn c
  | .bankComb _      => true
  | .bankAdv _       => true
  | .bankHold _      => true
  | .bankReset _     => true
  | .engKey          => true
  | .engStep         => true
  | .engProcess code => codeFits c code
  | .engIdle         => true
  | .engReset        => true

end Sys2Proof
end

