-- ==== Sys2Proof/Machine/Engine.lean ====
section
/-! DEFINITION. The engine's operations: key, stepping protocol, symbol processing, idle and reset
(42_key_derivation.md, 43_stepping.md, 44_process.md). -/

namespace Sys2Proof.Machine

/-- The stepping protocol in its normative order (R105): S1 advance `bankChi`; S2 read `controlB`'s pin and, if it
is 1, advance `bankPsi`; S3 read `controlA`'s pin and, if it is 1, advance `controlB`; S4 advance `controlA`. -/
def stepProtocol (c : Cfg) (g : Positions) : Answer Positions :=
  andThen (advanceBank c .chi g) fun g1 =>
  andThen (mB c g1) fun b =>
  andThen (if b = true then advanceBank c .psi g1 else .next g1) fun g2 =>
  andThen (mA c g2) fun a =>
  andThen (if a = true then advanceRotor c .controlB g2 else .next g2) fun g3 =>
  advanceRotor c .controlA g3

/-- A step that is no `ENG.PROCESS` leaves `result_o` unspecified (R65, R163, U8): a free value each time. -/
def withFreeResult (s : State) : State :=
  { s with out := .engOut s.cfg.rw (Config.freeResult s.cfg.rw s.draws), draws := s.draws + 1 }

/-- `ENG.KEY` (R100): drive the key of the current positions; write nothing. -/
def execEngKey (s : State) : Host.Outcome State Fault Refusal :=
  andThen (deriveKey s.cfg s.pos) fun key => .next { s with out := .engNet s.cfg.k key }

/-- `ENG.STEP` (R105): the stepping protocol; it returns no value (R65). -/
def execEngStep (s : State) : Host.Outcome State Fault Refusal :=
  andThen (stepProtocol s.cfg s.pos) fun g => .next { s with pos := g, out := .silent }

/-- `ENG.PROCESS code` (R120): the key and the result from the positions before, then the stepping protocol. -/
def execEngProcess (code : Nat) (s : State) : Host.Outcome State Fault Refusal :=
  if codeFits s.cfg code then
    andThen (deriveKey s.cfg s.pos) fun key =>
    andThen (stepProtocol s.cfg s.pos) fun g =>
    .next { s with pos := g, out := .engOut s.cfg.rw (maskCode s.cfg code key) }
  else .refused .codeTooWide

/-- `ENG.IDLE` (R122): no write, before the first reset too (R128). -/
def execEngIdle (s : State) : Host.Outcome State Fault Refusal := .next (withFreeResult s)

/-- `ENG.RESET` (R123, R155): every position to 0, from any state. -/
def execEngReset (s : State) : Host.Outcome State Fault Refusal :=
  .next (withFreeResult { s with pos := resetAll s.cfg s.pos })

end Sys2Proof.Machine
end

