-- ==== Sys2Proof/Machine/Rotor.lean ====
section
/-! DEFINITION. The rotor cell's operations (40_rotor.md, R80 to R83). -/

namespace Sys2Proof.Machine

/-- `ROTOR.PIN r` (R80): drive the pin at the current position; write nothing. -/
def execRotorPin (r : RotorId) (s : State) : Host.Outcome State Fault Refusal :=
  andThen (rotorPin s.cfg s.pos r) fun pin => .next { s with out := .rotorOut r pin }

/-- `ROTOR.ADV r` (R81): `pos[r] <- (pos[r] + 1) mod N_r`. -/
def execRotorAdv (r : RotorId) (s : State) : Host.Outcome State Fault Refusal :=
  andThen (advanceRotor s.cfg r s.pos) fun g => .next { s with pos := g, out := .silent }

/-- `ROTOR.HOLD r` (R82): `pos[r] <- pos[r]`. -/
def execRotorHold (r : RotorId) (s : State) : Host.Outcome State Fault Refusal :=
  andThen (holdRotor s.cfg r s.pos) fun g => .next { s with pos := g, out := .silent }

/-- `ROTOR.RESET r` (R83): `pos[r] <- 0`, from any state. -/
def execRotorReset (r : RotorId) (s : State) : Host.Outcome State Fault Refusal :=
  andThen (resetRotor s.cfg r s.pos) fun g => .next { s with pos := g, out := .silent }

end Sys2Proof.Machine
end

