-- ==== Sys2Proof/Machine/Dispatch.lean ====
section
/-! DEFINITION. Every operation of R72 and its meaning. -/

namespace Sys2Proof.Machine

def exec (i : Instr) (s : State) : Host.Outcome State Fault Refusal :=
  match i with
  | .rotorPin r => Sys2Proof.Machine.execRotorPin r s
  | .rotorAdv r => Sys2Proof.Machine.execRotorAdv r s
  | .rotorHold r => Sys2Proof.Machine.execRotorHold r s
  | .rotorReset r => Sys2Proof.Machine.execRotorReset r s
  | .bankComb b => Sys2Proof.Machine.execBankComb b s
  | .bankAdv b => Sys2Proof.Machine.execBankAdv b s
  | .bankHold b => Sys2Proof.Machine.execBankHold b s
  | .bankReset b => Sys2Proof.Machine.execBankReset b s
  | .engKey => Sys2Proof.Machine.execEngKey s
  | .engStep => Sys2Proof.Machine.execEngStep s
  | .engProcess code => Sys2Proof.Machine.execEngProcess code s
  | .engIdle => Sys2Proof.Machine.execEngIdle s
  | .engReset => Sys2Proof.Machine.execEngReset s

end Sys2Proof.Machine
end

