-- ==== Sys2Proof/Decode.lean ====
section
/-! DEFINITION. The command words of R60 to R64, R67 and R72: ports, decoder, opcode rows, encoder. -/

namespace Sys2Proof

/-- The command ports (R60): the engine's own, the only external one, and the inner port of each bank and of
each rotor cell. -/
inductive Port where
  | eng
  | bank (b : BankId)
  | rotor (r : RotorId)
deriving DecidableEq, Repr

/-- A word presented at a port, as a number. -/
structure Command where
  port : Port
  word : Nat
deriving DecidableEq, Repr

/-- Why a presented word is no command word. No bit pattern of a port is refused (R67): these are words that no
port of the configuration can carry. -/
inductive DecodeReject where
  /-- The rotor whose port is named does not exist in the configuration (R8). -/
  | noSuchPort (p : Port)
  /-- The number has more bits than the port's command word (R60). -/
  | wordTooWide (p : Port) (width : Nat)
deriving DecidableEq, Repr

/-- The width of a port's command word (R60). -/
def portWidth (c : Cfg) : Port → Nat
  | .eng     => c.dataW + 2
  | .bank _  => 2
  | .rotor _ => 2

/-- The port exists in the configuration: one per rotor (R60). -/
def portExists (c : Cfg) : Port → Bool
  | .eng     => true
  | .bank _  => true
  | .rotor r => r.existsIn c

/-- Bit 0 of a command word: `process` of `CW` (R61), `adv` of `RC` and `BC` (R63, R64). -/
def wordGo {n : Nat} (w : BitVec n) : Bit := w.getLsbD 0

/-- Bit 1 of a command word: `rst` (R61, R63, R64). -/
def wordRst {n : Nat} (w : BitVec n) : Bit := w.getLsbD 1

/-- `CW[DATA_W+1 : 2]`, the code field (R61), as the unsigned number it holds (R66). -/
def wordCode (dataW : Nat) (w : BitVec (dataW + 2)) : Nat := (w.extractLsb' 2 dataW).toNat

/-- Decode of format `ENG` (R62): `rst` has priority, the code is read by `ENG.PROCESS` alone. -/
def decodeEng (dataW : Nat) (w : BitVec (dataW + 2)) : Instr :=
  if wordRst w then .engReset
  else if wordGo w then .engProcess (wordCode dataW w)
  else .engIdle

/-- Decode of format `BANK` (R64). -/
def decodeBank (b : BankId) (w : BitVec 2) : Instr :=
  if wordRst w then .bankReset b
  else if wordGo w then .bankAdv b
  else .bankHold b

/-- Decode of format `ROTOR` (R63). -/
def decodeRotor (r : RotorId) (w : BitVec 2) : Instr :=
  if wordRst w then .rotorReset r
  else if wordGo w then .rotorAdv r
  else .rotorHold r

/-- Decode of a word whose port carries it. -/
def decodeAt (c : Cfg) (p : Port) (w : Nat) : Instr :=
  match p with
  | .eng     => decodeEng c.dataW (BitVec.ofNat _ w)
  | .bank b  => decodeBank b (BitVec.ofNat _ w)
  | .rotor r => decodeRotor r (BitVec.ofNat _ w)

/-- The decoder: total on any word at any port, rejecting by name what no port can carry (log entry 10). -/
def decode (c : Cfg) (cmd : Command) : Except DecodeReject Instr :=
  if portExists c cmd.port then
    if cmd.word < 2 ^ portWidth c cmd.port then .ok (decodeAt c cmd.port cmd.word)
    else .error (.wordTooWide cmd.port (portWidth c cmd.port))
  else .error (.noSuchPort cmd.port)

/-- The formats of R72 that are decoded. -/
inductive Format where
  | eng
  | bank
  | rotor
deriving DecidableEq, Repr

/-- One row of the opcode table that is selected by a bit pattern (R72). -/
structure OpcodeRow where
  mnemonic : String
  format   : Format
  mask     : Nat
  pattern  : Nat
deriving DecidableEq, Repr

/-- The nine decoded rows of R72, in its order; `ROTOR.PIN`, `BANK.COMB`, `ENG.KEY` and `ENG.STEP` are selected by
no bits (R65). -/
def opcodeRows : List OpcodeRow :=
  [⟨"ROTOR.ADV", .rotor, 0b11, 0b01⟩, ⟨"ROTOR.HOLD", .rotor, 0b11, 0b00⟩, ⟨"ROTOR.RESET", .rotor, 0b10, 0b10⟩,
   ⟨"BANK.ADV", .bank, 0b11, 0b01⟩, ⟨"BANK.HOLD", .bank, 0b11, 0b00⟩, ⟨"BANK.RESET", .bank, 0b10, 0b10⟩,
   ⟨"ENG.PROCESS", .eng, 0b11, 0b01⟩, ⟨"ENG.IDLE", .eng, 0b11, 0b00⟩, ⟨"ENG.RESET", .eng, 0b10, 0b10⟩]

/-- The format of a port's command word (R60). -/
def portFormat : Port → Format
  | .eng     => .eng
  | .bank _  => .bank
  | .rotor _ => .rotor

/-- The row selects the word: the word's masked bits are the row's pattern (R62). -/
def OpcodeRow.selects (row : OpcodeRow) (p : Port) (w : Nat) : Bool :=
  decide (row.format = portFormat p) && (w &&& row.mask == row.pattern)

/-- The mnemonic of an operation (R69). -/
def mnemonicOf : Instr → String
  | .rotorPin _   => "ROTOR.PIN"
  | .rotorAdv _   => "ROTOR.ADV"
  | .rotorHold _  => "ROTOR.HOLD"
  | .rotorReset _ => "ROTOR.RESET"
  | .bankComb _   => "BANK.COMB"
  | .bankAdv _    => "BANK.ADV"
  | .bankHold _   => "BANK.HOLD"
  | .bankReset _  => "BANK.RESET"
  | .engKey       => "ENG.KEY"
  | .engStep      => "ENG.STEP"
  | .engProcess _ => "ENG.PROCESS"
  | .engIdle      => "ENG.IDLE"
  | .engReset     => "ENG.RESET"

/-- The encoder: the port and the word that ask for an operation, with every ignored bit 0 (R61 to R64). The four
operations that no bits select have none (R65). `CW = {code, rst, process}`. -/
def encode : Instr → Option Command
  | .rotorPin _      => none
  | .rotorAdv r      => some ⟨.rotor r, 0b01⟩
  | .rotorHold r     => some ⟨.rotor r, 0b00⟩
  | .rotorReset r    => some ⟨.rotor r, 0b10⟩
  | .bankComb _      => none
  | .bankAdv b       => some ⟨.bank b, 0b01⟩
  | .bankHold b      => some ⟨.bank b, 0b00⟩
  | .bankReset b     => some ⟨.bank b, 0b10⟩
  | .engKey          => none
  | .engStep         => none
  | .engProcess code => some ⟨.eng, 4 * code + 0b01⟩
  | .engIdle         => some ⟨.eng, 0b00⟩
  | .engReset        => some ⟨.eng, 0b10⟩

/-- The pseudo-operations of R70. -/
inductive PseudoOp where
  | encrypt (code : Nat)
  | decrypt (code : Nat)
  | construct
  | keystream (n : Nat)
deriving DecidableEq, Repr

/-- The commands a pseudo-operation stands for (R70): encrypting and decrypting are the same `PROCESS`; `CONSTRUCT` is,
after elaboration, one `RESET`; `KEYSTREAM n` is `n` times `PROCESS 0`. -/
def expandPseudo : PseudoOp → List Instr
  | .encrypt code => [.engProcess code]
  | .decrypt code => [.engProcess code]
  | .construct    => [.engReset]
  | .keystream n  => List.replicate n (.engProcess 0)

/-- The word at the engine's port, the one external port (R60), of `State.reset`'s configuration: bit 0 of `w` is
`CW[0]` (R61). The words of the inner formats have the same bit patterns and are told apart by their port alone
(log entry 9). -/
def decodeTableWord (nbits w : Nat) : Option Instr :=
  match decode Config.reference ⟨.eng, w % 2 ^ nbits⟩ with
  | .ok i    => some i
  | .error _ => none

end Sys2Proof
end

