-- ==== Sys2Proof/Machine/Fetch.lean ====
section
/-! DEFINITION. How the next operation comes from the host (R12, R26, R61): there is no program counter and no fetch
from memory, the host presents one command word per step at the engine's port. -/

namespace Sys2Proof.Machine

/-- The operation the word asks for at the engine's port, and the state with that word taken. With no word left the
host makes no call, and "no call in this step" is `ENG.IDLE` (R69, R122): DEDUCED, log entry 4. -/
def nextCommand (s : State) : Answer (Instr × State) :=
  match s.inputs with
  | []        => .next (.engIdle, s)
  | w :: rest =>
    match decode s.cfg ⟨.eng, w⟩ with
    | .ok i    => .next (i, { s with inputs := rest })
    | .error _ => .refused .wordTooWide

end Sys2Proof.Machine
end

