-- ==== Sys2Proof/Machine/Step.lean ====
section
/-! DEFINITION. One step of the engine: one command word (R12, R47), and how the host asks for one. -/

namespace Sys2Proof.Machine

/-- One step: take the host's next command word, decode it, do it (R12, R61, R62). -/
def step (s : State) : Host.Outcome State Fault Refusal :=
  match nextCommand s with
  | .next (i, s') => exec i s'
  | .fault e      => .fault e
  | .refused e    => .refused e

/-- `s` with the word whose bits are `w` as the next one the host presents at the engine's port. -/
def State.withFetchWord (s : State) (nbits w : Nat) : State := { s with inputs := (w % 2 ^ nbits) :: s.inputs }

end Sys2Proof.Machine
end

