-- ==== Sys2Proof/Machine/Ports.lean ====
section
/-! DEFINITION. The port level (R71): the words the engine drives on its four inner ports, and what one clock edge
does with them. It is the single-edge form of the stepping protocol (R107), stated beside the ordered form of
`stepProtocol`, which is normative (R105). -/

namespace Sys2Proof.Machine

/-- A 2-bit inner command word: bit 0 `adv`, bit 1 `rst` (R63, R64). -/
def innerWord (rst adv : Bit) : BitVec 2 := BitVec.ofBool rst ++ BitVec.ofBool adv

/-- The words on the four inner ports in one step. -/
structure InnerWords where
  toChi : BitVec 2
  toPsi : BitVec 2
  toB   : BitVec 2
  toA   : BitVec 2
deriving DecidableEq, Repr

/-- The signals of R71: `go = process_i and not rst_i`; `adv_chi = go`, `adv_psi = go and mB`, `adv_B = go and mA`,
`adv_A = go`; every `rst` is `rst_i`. -/
def driveInner (rst process a b : Bit) : InnerWords :=
  let go := process && !rst
  ⟨innerWord rst go, innerWord rst (go && b), innerWord rst (go && a), innerWord rst go⟩

/-- What a rotor cell does with its word on a clock edge (R63). -/
def cellEdge (t : PinTable) (w : BitVec 2) (q : Option Nat) : Answer (Option Nat) :=
  if wordRst w then .next resetReg else if wordGo w then advanceReg t q else .next q

/-- A bank passes its word unchanged to each of its cells (R64). -/
def membersEdge (w : BitVec 2) : List PinTable → List (Option Nat) → Answer (List (Option Nat))
  | [], []           => .next []
  | t :: ts, q :: qs => andThen (cellEdge t w q) fun v => andThen (membersEdge w ts qs) fun vs => .next (v :: vs)
  | [], _ :: _       => .fault .positionOutOfRange
  | _ :: _, []       => .fault .positionOutOfRange

/-- A control pin as an enable: read only when the engine is asked to go, since `go and x` is 0 otherwise. -/
def gate (go : Bit) (pin : Answer Bit) : Answer Bit := if go then pin else .next false

/-- One clock edge of the whole engine (R71, R107): the enables are computed from the positions before the edge, and
every cell takes its word at once. -/
def engineEdge (c : Cfg) (rst process : Bit) (g : Positions) : Answer Positions :=
  let go := process && !rst
  andThen (gate go (mA c g)) fun a =>
  andThen (gate go (mB c g)) fun b =>
  let w := driveInner rst process a b
  andThen (membersEdge w.toChi c.raw.bankChi g.chi) fun chi =>
  andThen (membersEdge w.toPsi c.raw.bankPsi g.psi) fun psi =>
  andThen (cellEdge c.raw.controlB w.toB g.controlB) fun b' =>
  andThen (cellEdge c.raw.controlA w.toA g.controlA) fun a' =>
  .next ⟨a', b', psi, chi⟩

end Sys2Proof.Machine
end

