-- ==== Sys2Proof/Safety.lean ====
section
/-! DEFINITION. The vocabulary of the claims: which states are legal, and what a host sees when it gives a sequence of
command words. -/

namespace Sys2Proof.Machine

/-! ### Legal states -/

/-- A check of every register of a bank against the member's table; the bank has one register per member. -/
def membersAll (ok : PinTable → Option Nat → Bool) : List PinTable → List (Option Nat) → Bool
  | [], []           => true
  | t :: ts, q :: qs => ok t q && membersAll ok ts qs
  | [], _ :: _       => false
  | _ :: _, []       => false

/-- A check of each of the `2K + 2` registers (R20). -/
def rotorsAll (ok : PinTable → Option Nat → Bool) (c : Cfg) (g : Positions) : Bool :=
  ok c.raw.controlA g.controlA && ok c.raw.controlB g.controlB &&
  membersAll ok c.raw.bankPsi g.psi && membersAll ok c.raw.bankChi g.chi

/-- `0 <= pos[r] < N_r` (R22). -/
def inRange (t : PinTable) (q : Option Nat) : Bool :=
  match q with
  | some p => decide (p < t.length)
  | none   => false

/-- No value yet (R32), or a position in range (R22). -/
def valuelessOrInRange (t : PinTable) (q : Option Nat) : Bool :=
  match q with
  | some p => decide (p < t.length)
  | none   => true

/-- The engine has been reset and every position is a valid index: the invariant of R22. -/
abbrev Ready (s : State) : Prop := rotorsAll inRange s.cfg s.pos = true

/-- Every register holds either no value or a valid index. -/
abbrev Legal (s : State) : Prop := rotorsAll valuelessOrInRange s.cfg s.pos = true

/-- Every register holds a value, a valid index or not. -/
abbrev Valued (s : State) : Prop := rotorsAll (fun _ q => q.isSome) s.cfg s.pos = true

/-- No register holds a value: the power-on state of R32. -/
abbrev AtPowerOn (s : State) : Prop := s.pos = (State.powerOn s.cfg).pos

/-- The word can stand at the engine's port (R60, R61). -/
abbrev wordFits (c : Cfg) (w : Nat) : Prop := w < 2 ^ (c.dataW + 2)

/-- Every word the host has queued can stand at the engine's port. -/
abbrev WordsFit (s : State) : Prop := ∀ w ∈ s.inputs, wordFits s.cfg w

/-! ### What a host sees -/

/-- The word `PROCESS code` (R61): `CW = {code, rst, process}`. -/
def processWord (code : Nat) : Nat := 4 * code + 1

/-- The word `RESET` (R62). -/
def resetWord : Nat := 2

/-- The word asks for `ENG.IDLE` (R62): `rst` and `process` both 0, whatever the code field. -/
def isIdleWord (w : Nat) : Bool := w % 4 == 0

/-- The result a host may take in the step of the word `w` that led to `t`: specified only where the word decodes
to `ENG.PROCESS` (R65, R163). -/
def resultOfStep (c : Cfg) (w : Nat) (t : State) : List Nat :=
  match decode c ⟨.eng, w⟩, t.out with
  | .ok (.engProcess _), .engOut _ v => [v.toNat]
  | _, _                             => []

/-- The host gives the words one a step; what comes back is the results of the `ENG.PROCESS` steps, in order, and
the state at the end. None if a step stops. -/
def runWords : State → List Nat → Option (List Nat × State)
  | s, []      => some ([], s)
  | s, w :: ws =>
    match step { s with inputs := [w] } with
    | .next t    => (runWords t ws).map fun r => (resultOfStep s.cfg w t ++ r.1, r.2)
    | .fault _   => none
    | .refused _ => none

/-- A sequence of commands at one rotor cell: `true` is `ROTOR.ADV r`, `false` is `ROTOR.HOLD r` (R84). -/
def rotorCommands (r : RotorId) : List Bool → State → Host.Outcome State Fault Refusal
  | [], s          => .next s
  | true :: cs, s  => andThen (exec (.rotorAdv r) s) (rotorCommands r cs)
  | false :: cs, s => andThen (exec (.rotorHold r) s) (rotorCommands r cs)

/-- `ROTOR.ADV` on the members `b[i], .., b[i+n-1]` of a bank, one after another in index order: the loop of R91. -/
def advMembersInOrder (b : BankId) : Nat → Nat → State → Host.Outcome State Fault Refusal
  | _, 0, s     => .next s
  | i, n + 1, s =>
    andThen (exec (.rotorAdv (match b with | .psi => .psi i | .chi => .chi i)) s) (advMembersInOrder b (i + 1) n)

/-! ### The counts of R110 -/

/-- How many `s` in `[0, t)` satisfy `f`. -/
def countBelow (f : Nat → Bool) : Nat → Nat
  | 0     => 0
  | t + 1 => countBelow f t + if f t then 1 else 0

/-- `cB(t)` (R110): the number of `s` in `[0, t)` with `PINS_A[s mod N_A] = 1`. -/
def cB (c : Cfg) (t : Nat) : Nat := countBelow (fun s => c.raw.controlA[s % c.raw.controlA.length]? == some true) t

/-- `cPsi(t)` (R110): the number of `s` in `[0, t)` with `PINS_B[cB(s) mod N_B] = 1`. -/
def cPsi (c : Cfg) (t : Nat) : Nat :=
  countBelow (fun s => c.raw.controlB[cB c s % c.raw.controlB.length]? == some true) t

/-- The positions of R110 before the `t`-th symbol. -/
def closedForm (c : Cfg) (t : Nat) : Positions where
  controlA := some (t % c.raw.controlA.length)
  controlB := some (cB c t % c.raw.controlB.length)
  psi      := c.raw.bankPsi.map fun tbl => some (cPsi c t % tbl.length)
  chi      := c.raw.bankChi.map fun tbl => some (t % tbl.length)

/-! ### The single-edge form of R107 -/

/-- `(pos + 1) mod N`, where the register holds a value. -/
def bump (t : PinTable) (q : Option Nat) : Option Nat := q.map (nextPos t.length)

/-- The simultaneous update of R107, every right-hand side read from the positions before: `a` is `mA`, `b` is
`mB`. -/
def singleEdge (c : Cfg) (a b : Bit) (g : Positions) : Positions where
  chi      := List.zipWith bump c.raw.bankChi g.chi
  psi      := if b then List.zipWith bump c.raw.bankPsi g.psi else g.psi
  controlB := if a then bump c.raw.controlB g.controlB else g.controlB
  controlA := bump c.raw.controlA g.controlA

end Sys2Proof.Machine
end

