-- ==== Sys2Proof/Certificates/Slice0/Obligations.lean ====
section
/-! DEFINITION. The statements for the provers. Each docstring names the rule of spec/ it formalises. Every statement
is for every configuration: `s.cfg` and `c` are universally quantified well-formed configurations (R10, R11). -/

open Sys2Proof Sys2Proof.Machine

/-! ### Reset -/

/-- R156 (and the table of R31): after reset every position is 0, and every net has its value for those positions:
each pin is the table's first, the combined values and the key are made of the first pins, member `i` at bit
`K-1-i`. -/
def Obligations.ResetStateHasPositionsZeroAndNetsOfFirstPins : Prop :=
  ∀ c : Cfg,
    (State.resetOf c).cfg = c ∧
    (∀ r t, table? c r = some t →
      reg? (State.resetOf c).pos r = some (some 0) ∧
      ∃ pin, t[0]? = some pin ∧ rotorPin c (State.resetOf c).pos r = .next pin) ∧
    (∃ a, c.raw.controlA[0]? = some a ∧ mA c (State.resetOf c).pos = .next a) ∧
    (∃ b, c.raw.controlB[0]? = some b ∧ mB c (State.resetOf c).pos = .next b) ∧
    ∃ psiComb chiComb : BitVec c.k,
      bankComb c (State.resetOf c).pos .psi = .next psiComb ∧
      bankComb c (State.resetOf c).pos .chi = .next chiComb ∧
      deriveKey c (State.resetOf c).pos = .next (psiComb ^^^ chiComb) ∧
      ∀ (i : Nat) tp tc x y, c.raw.bankPsi[i]? = some tp → c.raw.bankChi[i]? = some tc →
        tp[0]? = some x → tc[0]? = some y →
        psiComb.getLsbD (c.k - 1 - i) = x ∧ chiComb.getLsbD (c.k - 1 - i) = y ∧
        (psiComb ^^^ chiComb).getLsbD (c.k - 1 - i) = Bool.xor x y

/-- R22, its first half: the invariant holds after reset, for every configuration and for `State.reset` (whose
configuration is the model's choice, log entry 2). -/
def Obligations.ResetStateIsReady : Prop :=
  (∀ c : Cfg, Ready (State.resetOf c)) ∧ Ready State.reset

/-! ### The rotor cell -/

/-- R80: `ROTOR.PIN r` drives the pin at the position and writes nothing else; it is selected by no bits; where the
position is not below `N_r` it faults (U2). -/
def Obligations.RotorPinDrivesThePinAtThePosition : Prop :=
  ∀ (s : State) (r : RotorId) (t : PinTable) (p : Nat),
    table? s.cfg r = some t → reg? s.pos r = some (some p) →
    (∀ pin, t[p]? = some pin → exec (.rotorPin r) s = .next { s with out := .rotorOut r pin }) ∧
    (p < t.length → ∃ pin, t[p]? = some pin) ∧
    (t.length ≤ p → exec (.rotorPin r) s = .fault .positionOutOfRange) ∧
    encode (.rotorPin r) = none ∧ ∀ cmd, decode s.cfg cmd ≠ .ok (.rotorPin r)

/-- R81: `ROTOR.ADV r` is selected by `RC = 0b01`; the position goes on by one modulo the length, wrapping from
`N - 1` to 0; no other register and no other field but the (silent) output changes. -/
def Obligations.RotorAdvMovesOnByOneModuloTheLength : Prop :=
  ∀ (s : State) (r : RotorId) (t : PinTable) (p : Nat),
    table? s.cfg r = some t → reg? s.pos r = some (some p) → p < t.length →
    decode s.cfg ⟨.rotor r, 0b01⟩ = .ok (.rotorAdv r) ∧
    (p + 1) % t.length = (if p = t.length - 1 then 0 else p + 1) ∧
    ∃ g, exec (.rotorAdv r) s = .next { s with pos := g, out := .silent } ∧
      reg? g r = some (some ((p + 1) % t.length)) ∧
      ∀ r', r' ≠ r → reg? g r' = reg? s.pos r'

/-- R82: `ROTOR.HOLD r` is selected by `RC = 0b00` and changes no register, whatever the register holds. -/
def Obligations.RotorHoldChangesNoRegister : Prop :=
  ∀ (s : State) (r : RotorId) (t : PinTable) (q : Option Nat),
    table? s.cfg r = some t → reg? s.pos r = some q →
    decode s.cfg ⟨.rotor r, 0b00⟩ = .ok (.rotorHold r) ∧
    exec (.rotorHold r) s = .next { s with out := .silent }

/-- R83: `ROTOR.RESET r` is selected by `RC = 0b10` and `0b11` (the `adv` bit ignored), from any state, the power-on
state included; the position is 0, the pin is the table's first, and no other register changes. -/
def Obligations.RotorResetPutsThePositionToZero : Prop :=
  ∀ (s : State) (r : RotorId) (t : PinTable) (q : Option Nat),
    table? s.cfg r = some t → reg? s.pos r = some q →
    decode s.cfg ⟨.rotor r, 0b10⟩ = .ok (.rotorReset r) ∧
    decode s.cfg ⟨.rotor r, 0b11⟩ = .ok (.rotorReset r) ∧
    ∃ g, exec (.rotorReset r) s = .next { s with pos := g, out := .silent } ∧
      reg? g r = some (some 0) ∧
      (∃ pin, t[0]? = some pin ∧ rotorPin s.cfg g r = .next pin) ∧
      ∀ r', r' ≠ r → reg? g r' = reg? s.pos r'

/-- R84: after any sequence of `ROTOR.ADV` and `ROTOR.HOLD` at one rotor, `n` of them advances, the position is
`(p + n) mod N` and the pin is the one there; `N` advances return every register to where it was. -/
def Obligations.RotorPositionIsPeriodicInItsLength : Prop :=
  ∀ (s : State) (r : RotorId) (t : PinTable) (p : Nat) (cmds : List Bool),
    table? s.cfg r = some t → reg? s.pos r = some (some p) → p < t.length →
    ∃ u, rotorCommands r cmds s = .next u ∧ u.cfg = s.cfg ∧
      reg? u.pos r = some (some ((p + cmds.count true) % t.length)) ∧
      (∀ pin, t[(p + cmds.count true) % t.length]? = some pin → rotorPin u.cfg u.pos r = .next pin) ∧
      (∀ r', r' ≠ r → reg? u.pos r' = reg? s.pos r') ∧
      (cmds.count true = t.length → u.pos = s.pos)

/-! ### The rotor bank -/

/-- R90: `BANK.COMB b` drives a `K`-bit value whose bit `K-1-i` is the pin of member `i`, the number the shift and
or loop builds; it writes nothing and is selected by no bits. -/
def Obligations.BankCombPacksPinsMostSignificantFirst : Prop :=
  ∀ (s : State) (b : BankId),
    membersAll inRange (bankTables s.cfg b) (bankRegs s.pos b) = true →
    (∃ v : BitVec s.cfg.k, exec (.bankComb b) s = .next { s with out := .bankOut b s.cfg.k v } ∧
      (∀ (i : Nat) t p pin, (bankTables s.cfg b)[i]? = some t → (bankRegs s.pos b)[i]? = some (some p) →
        t[p]? = some pin → v.getLsbD (s.cfg.k - 1 - i) = pin) ∧
      ∃ pins, memberPins (bankTables s.cfg b) (bankRegs s.pos b) = .next pins ∧
        v.toNat = pins.foldl (fun acc pin => 2 * acc + pin.toNat) 0) ∧
    encode (.bankComb b) = none ∧ ∀ cmd, decode s.cfg cmd ≠ .ok (.bankComb b)

/-- R91: `BANK.ADV b` is selected by `BC = 0b01`; every member goes on by one modulo its own length; no register
outside the bank changes. -/
def Obligations.BankAdvMovesEveryMember : Prop :=
  ∀ (s : State) (b : BankId),
    membersAll inRange (bankTables s.cfg b) (bankRegs s.pos b) = true →
    decode s.cfg ⟨.bank b, 0b01⟩ = .ok (.bankAdv b) ∧
    ∃ g, exec (.bankAdv b) s = .next { s with pos := g, out := .silent } ∧
      (bankRegs g b).length = (bankRegs s.pos b).length ∧
      (∀ (i : Nat) t p, (bankTables s.cfg b)[i]? = some t → (bankRegs s.pos b)[i]? = some (some p) →
        (bankRegs g b)[i]? = some (some ((p + 1) % t.length))) ∧
      g.controlA = s.pos.controlA ∧ g.controlB = s.pos.controlB ∧
      ∀ b', b' ≠ b → bankRegs g b' = bankRegs s.pos b'

/-- R91, its loop: `BANK.ADV b` is `ROTOR.ADV` on the members `b[0], .., b[K-1]`, one after another in index order.
(The machine's own update is the simultaneous one, D28.) -/
def Obligations.BankAdvEqualsMemberLoopInIndexOrder : Prop :=
  ∀ (s : State) (b : BankId),
    membersAll inRange (bankTables s.cfg b) (bankRegs s.pos b) = true →
    advMembersInOrder b 0 s.cfg.k s = exec (.bankAdv b) s

/-- R92: `BANK.HOLD b` is selected by `BC = 0b00` and changes no register. -/
def Obligations.BankHoldChangesNoRegister : Prop :=
  ∀ (s : State) (b : BankId),
    decode s.cfg ⟨.bank b, 0b00⟩ = .ok (.bankHold b) ∧
    exec (.bankHold b) s = .next { s with out := .silent }

/-- R93: `BANK.RESET b` is selected by `BC = 0b10` and `0b11`, from any state; every member's position is 0 and the
combined value is made of the first pins; no register outside the bank changes. -/
def Obligations.BankResetPutsEveryMemberToZero : Prop :=
  ∀ (s : State) (b : BankId),
    decode s.cfg ⟨.bank b, 0b10⟩ = .ok (.bankReset b) ∧
    decode s.cfg ⟨.bank b, 0b11⟩ = .ok (.bankReset b) ∧
    ∃ g, exec (.bankReset b) s = .next { s with pos := g, out := .silent } ∧
      bankRegs g b = List.replicate s.cfg.k (some 0) ∧
      (∃ v, bankComb s.cfg g b = .next v ∧
        ∀ (i : Nat) t pin, (bankTables s.cfg b)[i]? = some t → t[0]? = some pin →
          v.getLsbD (s.cfg.k - 1 - i) = pin) ∧
      g.controlA = s.pos.controlA ∧ g.controlB = s.pos.controlB ∧
      ∀ b', b' ≠ b → bankRegs g b' = bankRegs s.pos b'

/-! ### The key -/

/-- R100: `ENG.KEY` drives the exclusive or of the two combined values: bit `K-1-i` is the exclusive or of the pins
of members `i`. It reads neither control rotor (nothing is assumed of them), writes nothing, and is selected by no
bits. -/
def Obligations.EngKeyIsPsiXorChi : Prop :=
  ∀ s : State,
    membersAll inRange s.cfg.raw.bankPsi s.pos.psi = true → membersAll inRange s.cfg.raw.bankChi s.pos.chi = true →
    (∃ psiComb chiComb : BitVec s.cfg.k,
      exec (.bankComb .psi) s = .next { s with out := .bankOut .psi s.cfg.k psiComb } ∧
      exec (.bankComb .chi) s = .next { s with out := .bankOut .chi s.cfg.k chiComb } ∧
      exec .engKey s = .next { s with out := .engNet s.cfg.k (psiComb ^^^ chiComb) } ∧
      ∀ (i : Nat) tp tc p q x y, s.cfg.raw.bankPsi[i]? = some tp → s.cfg.raw.bankChi[i]? = some tc →
        s.pos.psi[i]? = some (some p) → s.pos.chi[i]? = some (some q) → tp[p]? = some x → tc[q]? = some y →
        (psiComb ^^^ chiComb).getLsbD (s.cfg.k - 1 - i) = Bool.xor x y) ∧
    encode .engKey = none ∧ ∀ cmd, decode s.cfg cmd ≠ .ok .engKey

/-! ### The stepping protocol -/

/-- R105 and R106: `ENG.STEP` is the four parts in their order, S1 `BANK.ADV bankChi`, S2 `BANK.ADV bankPsi` if
`controlB`'s pin is 1, S3 `ROTOR.ADV controlB` if `controlA`'s pin is 1, S4 `ROTOR.ADV controlA`; the pins read
after S1 and after S2 are the pins of the state before the step; it is never selected on its own. -/
def Obligations.EngStepRunsTheFourPartsInOrder : Prop :=
  ∀ s : State, Ready s →
    (∃ s1 s2 s3 s4 a b,
      exec (.bankAdv .chi) s = .next s1 ∧
      rotorPin s1.cfg s1.pos .controlB = .next b ∧ rotorPin s.cfg s.pos .controlB = .next b ∧
      (if b = true then exec (.bankAdv .psi) s1 = .next s2 else s2 = s1) ∧
      rotorPin s2.cfg s2.pos .controlA = .next a ∧ rotorPin s.cfg s.pos .controlA = .next a ∧
      (if a = true then exec (.rotorAdv .controlB) s2 = .next s3 else s3 = s2) ∧
      exec (.rotorAdv .controlA) s3 = .next s4 ∧
      exec .engStep s = .next s4) ∧
    encode .engStep = none ∧ ∀ cmd, decode s.cfg cmd ≠ .ok .engStep

/-- R107: the ordered protocol equals the simultaneous update in which every right-hand side is read from the state
before the step. -/
def Obligations.EngStepEqualsSingleEdgeUpdate : Prop :=
  ∀ s : State, Ready s →
    ∃ a b, mA s.cfg s.pos = .next a ∧ mB s.cfg s.pos = .next b ∧
      exec .engStep s = .next { s with pos := singleEdge s.cfg a b s.pos, out := .silent }

/-- R108: the truth table of one `ENG.STEP`, for every rotor: Chi and `controlA` always move by one, Psi moves by one
exactly when `mB` is 1, `controlB` exactly when `mA` is 1, and a rotor that does not move keeps its position. -/
def Obligations.EngStepTruthTable : Prop :=
  ∀ (s : State) (a b : Bit), Ready s → mA s.cfg s.pos = .next a → mB s.cfg s.pos = .next b →
    ∃ u, exec .engStep s = .next u ∧
      ∀ r t p, table? s.cfg r = some t → reg? s.pos r = some (some p) →
        reg? u.pos r = some (some (
          match r with
          | .chi _    => (p + 1) % t.length
          | .psi _    => if b = true then (p + 1) % t.length else p
          | .controlB => if a = true then (p + 1) % t.length else p
          | .controlA => (p + 1) % t.length))

/-- R71: what the engine does for a command word is what the inner ports do with the words it drives on them:
`adv_chi = go`, `adv_psi = go and mB`, `adv_B = go and mA`, `adv_A = go`, every `rst` being `rst_i`. From a ready
state it is so for every word, and for a word of `ENG.RESET` or `ENG.IDLE` also where registers have no value yet,
from the power-on state among others (the marker of each register is the model's reading, log entry 7). -/
def Obligations.EngineEqualsItsInnerPortsOnOneEdge : Prop :=
  ∀ (s : State) (w : BitVec (s.cfg.dataW + 2)),
    Ready s ∨ (Legal s ∧ (wordRst w = true ∨ wordGo w = false)) →
    ∃ u, exec (decodeEng s.cfg.dataW w) s = .next u ∧
      engineEdge s.cfg (wordRst w) (wordGo w) s.pos = .next u.pos

/-- R110: after any sequence of words without a reset, from reset, with `t` of them `ENG.PROCESS`, the positions and
the two control pins are the closed forms at `t`; idle steps do not count. -/
def Obligations.PositionsFollowTheClosedForms : Prop :=
  ∀ (c : Cfg) (ws : List Nat), (∀ w ∈ ws, wordFits c w ∧ w % 4 < 2) →
    ∃ results u, runWords (State.resetOf c) ws = some (results, u) ∧
      u.pos = closedForm c (ws.countP (· % 4 == 1)) ∧
      (∀ a, c.raw.controlA[(ws.countP (· % 4 == 1)) % c.raw.controlA.length]? = some a → mA c u.pos = .next a) ∧
      (∀ b, c.raw.controlB[cB c (ws.countP (· % 4 == 1)) % c.raw.controlB.length]? = some b →
        mB c u.pos = .next b)

/-- R33, for the repeated command `ENG.PROCESS 0`: the state sequence is eventually periodic. (For other codes the
positions are the same, `CodesDoNotInfluenceTheStepping`.) -/
def Obligations.RepeatedProcessIsEventuallyPeriodic : Prop :=
  ∀ s : State, Ready s →
    ∃ start period, 0 < period ∧
      ∀ n, start ≤ n →
        ∃ r1 r2 u1 u2, runWords s (List.replicate n (processWord 0)) = some (r1, u1) ∧
          runWords s (List.replicate (n + period) (processWord 0)) = some (r2, u2) ∧ u1.pos = u2.pos

/-! ### Symbol processing, idle and reset -/

/-- R120: `ENG.PROCESS code` takes the key of the state before it, gives `zext_RW(code) xor zext_RW(key)` and runs
`ENG.STEP`; it is selected by `CW[1:0] = 0b01` with the code above, and with `rst_i = 1` in the same word the command
is `ENG.RESET`; before the first reset it is refused. -/
def Obligations.EngProcessMasksWithTheKeyBeforeAndThenSteps : Prop :=
  ∀ (s : State) (code : Nat), code < 2 ^ s.cfg.dataW →
    decode s.cfg ⟨.eng, 4 * code + 0b01⟩ = .ok (.engProcess code) ∧
    decode s.cfg ⟨.eng, 4 * code + 0b11⟩ = .ok .engReset ∧
    (Ready s →
      ∃ key u, exec .engKey s = .next { s with out := .engNet s.cfg.k key } ∧
        exec .engStep s = .next u ∧
        exec (.engProcess code) s =
          .next { u with
            out := .engOut s.cfg.rw ((BitVec.ofNat s.cfg.dataW code).setWidth s.cfg.rw ^^^ key.setWidth s.cfg.rw) }) ∧
    (AtPowerOn s → exec (.engProcess code) s = .refused .beforeReset)

/-- R121: the result bit by bit at `RW = max(DATA_W, K)`: code xor key where both have a bit, the code's bits above
the key, the key's bits above the code; as numbers the exclusive or of code and key. -/
def Obligations.ResultBitsForEveryPairOfWidths : Prop :=
  ∀ (s : State) (code : Nat), Ready s → code < 2 ^ s.cfg.dataW →
    ∃ (key : BitVec s.cfg.k) (u : State) (v : BitVec (max s.cfg.dataW s.cfg.k)),
      deriveKey s.cfg s.pos = .next key ∧
      exec (.engProcess code) s = .next u ∧ u.out = .engOut (max s.cfg.dataW s.cfg.k) v ∧
      (∀ j, j < min s.cfg.dataW s.cfg.k → v.getLsbD j = Bool.xor (code.testBit j) (key.getLsbD j)) ∧
      (∀ j, s.cfg.k ≤ j → j < s.cfg.dataW → v.getLsbD j = code.testBit j) ∧
      (∀ j, s.cfg.dataW ≤ j → j < s.cfg.k → v.getLsbD j = key.getLsbD j) ∧
      v.toNat = code ^^^ key.toNat

/-- R122: `ENG.IDLE` is selected by `CW[1:0] = 0b00` whatever the code field, and writes no position, before the
first reset too; what it leaves on `result_o` is some value, unspecified (U8). -/
def Obligations.EngIdleWritesNoPosition : Prop :=
  ∀ s : State,
    (∃ v, exec .engIdle s = .next { s with out := .engOut s.cfg.rw v, draws := s.draws + 1 }) ∧
    ∀ w, wordFits s.cfg w → w % 4 = 0 → decode s.cfg ⟨.eng, w⟩ = .ok .engIdle

/-- R123 and R155: `ENG.RESET` is selected by `CW[1] = 1`, the other bits ignored; from any state, the power-on state
included, every position is 0 and nothing else of the hardware changes; `result_o` is some value, unspecified. -/
def Obligations.EngResetPutsEveryPositionToZero : Prop :=
  ∀ s : State,
    (∃ v g, exec .engReset s = .next { s with pos := g, out := .engOut s.cfg.rw v, draws := s.draws + 1 } ∧
      (∀ r t, table? s.cfg r = some t → reg? g r = some (some 0)) ∧
      (∀ r, table? s.cfg r = none → reg? g r = none) ∧
      rotorsAll inRange s.cfg g = true) ∧
    ∀ w, wordFits s.cfg w → 2 ≤ w % 4 → decode s.cfg ⟨.eng, w⟩ = .ok .engReset

/-- R128: before the first reset `ENG.PROCESS` is refused, `ENG.IDLE` leaves the state without a value, and
`ENG.RESET` gives it one. -/
def Obligations.BeforeTheFirstResetOnlyResetGivesAState : Prop :=
  ∀ s : State, AtPowerOn s →
    (∀ code, code < 2 ^ s.cfg.dataW → exec (.engProcess code) s = .refused .beforeReset) ∧
    (∃ u, exec .engIdle s = .next u ∧ AtPowerOn u) ∧
    (∃ u, exec .engReset s = .next u ∧ Ready u)

/-- R70 (`KEYSTREAM`): the result of `PROCESS 0` is the key in its low `K` bits, and 0 above. -/
def Obligations.ProcessZeroReturnsTheKey : Prop :=
  ∀ s : State, Ready s →
    ∃ (key : BitVec s.cfg.k) (u : State) (v : BitVec s.cfg.rw),
      deriveKey s.cfg s.pos = .next key ∧ exec (.engProcess 0) s = .next u ∧ u.out = .engOut s.cfg.rw v ∧
      v.toNat = key.toNat ∧ v.setWidth s.cfg.k = key

/-- R124: two engines of the same configuration, each given a reset in whatever state it is; the second is fed the
results of the first (their low `DATA_W` bits). The second's results have the first's codes in their low `DATA_W`
bits, and where `DATA_W >= K` they are the codes themselves. With `s2` the first engine's own last state it is the
one-engine form. -/
def Obligations.EnginesFedEachOthersResultsRecoverTheMessage : Prop :=
  ∀ (s1 s2 : State) (codes : List Nat), s1.cfg = s2.cfg → (∀ code ∈ codes, code < 2 ^ s1.cfg.dataW) →
    ∃ sent u1 back u2,
      runWords s1 (resetWord :: codes.map processWord) = some (sent, u1) ∧
      runWords s2 (resetWord :: (sent.map (· % 2 ^ s1.cfg.dataW)).map processWord) = some (back, u2) ∧
      back.map (· % 2 ^ s1.cfg.dataW) = codes ∧
      (s1.cfg.k ≤ s1.cfg.dataW → sent.map (· % 2 ^ s1.cfg.dataW) = sent ∧ back = codes)

/-- R125 (and R145, and the corner of R122): two engines of the same configuration in the same positions that are
given the same words return the same results and end in the same positions, whatever they last returned or drew;
and so they do when the second's host leaves out its idle steps. -/
def Obligations.SameConfigurationAndPositionsGiveTheSameResults : Prop :=
  ∀ (s1 s2 u1 : State) (ws results : List Nat), s1.cfg = s2.cfg → s1.pos = s2.pos →
    runWords s1 ws = some (results, u1) →
    (∃ u2, runWords s2 ws = some (results, u2) ∧ u2.pos = u1.pos ∧ u2.cfg = u1.cfg) ∧
    ∃ u3, runWords s2 (ws.filter fun w => !isIdleWord w) = some (results, u3) ∧ u3.pos = u1.pos

/-- R162: a reset restarts the keystream from `key_0`: what follows a reset is what follows it from the state after
reset, whatever came before it. -/
def Obligations.ResetRestartsTheKeystream : Prop :=
  ∀ (s u : State) (ws results : List Nat),
    runWords s (resetWord :: ws) = some (results, u) →
    ∃ u', runWords (State.resetOf s.cfg) ws = some (results, u') ∧ u'.pos = u.pos

/-- R112 (d): the code operand has no influence on the stepping: two word sequences that differ in their code fields
alone lead to the same positions. -/
def Obligations.CodesDoNotInfluenceTheStepping : Prop :=
  ∀ (s u1 u2 : State) (ws1 ws2 r1 r2 : List Nat), List.Forall₂ (fun w1 w2 => w1 % 4 = w2 % 4) ws1 ws2 →
    runWords s ws1 = some (r1, u1) → runWords s ws2 = some (r2, u2) → u1.pos = u2.pos

/-! ### Whole-machine rules -/

/-- R22: after the first reset, at every step boundary, every position is a valid index: from a state in which it is
so, every operation and every step that answers leaves it so; from a state whose registers hold a valid index or no
value yet, every operation leaves them so (that the power-on marker stands per register is the model's reading, log
entry 7); and at a position at or above the pin count `ROTOR.PIN` and `ROTOR.ADV` of that rotor fault (U2, R43).
What the operations of the banks and the engine do there is `OutOfRangePositionFaultsWhereverItIsRead`. -/
def Obligations.PositionsStayValidIndices : Prop :=
  (∀ c : Cfg, Ready (State.resetOf c)) ∧
  (∀ s t : State, Ready s → step s = .next t → Ready t) ∧
  (∀ (i : Instr) (s t : State), Ready s → exec i s = .next t → Ready t) ∧
  (∀ (i : Instr) (s t : State), Legal s → exec i s = .next t → Legal t) ∧
  (∀ (s : State) (r : RotorId) (t : PinTable) (p : Nat),
    table? s.cfg r = some t → reg? s.pos r = some (some p) → t.length ≤ p →
    exec (.rotorPin r) s = .fault .positionOutOfRange ∧ exec (.rotorAdv r) s = .fault .positionOutOfRange)

/-- R43, R52 and U2: a position at or above the pin count is a fault in every operation that reads it, never a value
and never a silent wrap: in `ROTOR.PIN` and `ROTOR.ADV` of that rotor, in `BANK.COMB` and `BANK.ADV` of its bank, in
`ENG.KEY` if it is a bank's, in `ENG.STEP` (a Psi member is read there only where `mB` is 1), and in `ENG.PROCESS`.
Every register holds a value, so that no refusal of a register without one (log entry 7) comes first. -/
def Obligations.OutOfRangePositionFaultsWhereverItIsRead : Prop :=
  ∀ (s : State) (r : RotorId) (t : PinTable) (p : Nat), Valued s →
    table? s.cfg r = some t → reg? s.pos r = some (some p) → t.length ≤ p →
    exec (.rotorPin r) s = .fault .positionOutOfRange ∧
    exec (.rotorAdv r) s = .fault .positionOutOfRange ∧
    (∀ code, code < 2 ^ s.cfg.dataW → exec (.engProcess code) s = .fault .positionOutOfRange) ∧
    match r with
    | .controlA | .controlB => exec .engStep s = .fault .positionOutOfRange
    | .psi _ =>
      exec (.bankComb .psi) s = .fault .positionOutOfRange ∧ exec (.bankAdv .psi) s = .fault .positionOutOfRange ∧
      exec .engKey s = .fault .positionOutOfRange ∧
      (mB s.cfg s.pos = .next true → exec .engStep s = .fault .positionOutOfRange)
    | .chi _ =>
      exec (.bankComb .chi) s = .fault .positionOutOfRange ∧ exec (.bankAdv .chi) s = .fault .positionOutOfRange ∧
      exec .engKey s = .fault .positionOutOfRange ∧ exec .engStep s = .fault .positionOutOfRange

/-- R137 and R127: a reset engine never fails: from a ready state every step on words the port can carry answers a
next state, again ready, and so does every operation the configuration has. -/
def Obligations.ReadyEngineNeverStops : Prop :=
  (∀ s : State, Ready s → WordsFit s → ∃ t, step s = .next t ∧ Ready t ∧ WordsFit t) ∧
  (∀ (i : Instr) (s : State), Ready s → i.wf s.cfg = true → ∃ t, exec i s = .next t ∧ Ready t)

/-- R127: an unbounded sequence of symbols: from a ready state any sequence of words the port can carry runs to its
end, with one result for each `ENG.PROCESS`; so it does from any state at all once a reset comes first. -/
def Obligations.EveryWordSequenceRunsToItsEnd : Prop :=
  (∀ (s : State) (ws : List Nat), Ready s → (∀ w ∈ ws, wordFits s.cfg w) →
    ∃ results u, runWords s ws = some (results, u) ∧ Ready u ∧ results.length = ws.countP (· % 4 == 1)) ∧
  (∀ (s : State) (ws : List Nat), (∀ w ∈ ws, wordFits s.cfg w) →
    ∃ results u, runWords s (resetWord :: ws) = some (results, u) ∧ Ready u ∧
      results.length = ws.countP (· % 4 == 1))

/-- The frame of every operation (R21, R23, R41, R44): none changes the configuration or the host's queue; the
operations that read or hold change no position; only `ENG.IDLE` and `ENG.RESET` draw a free value; the control
rotors and the other bank are unchanged by a bank's operations, and every other register by a rotor's. -/
def Obligations.FrameOfEveryOperation : Prop :=
  ∀ (i : Instr) (s t : State), exec i s = .next t →
    t.cfg = s.cfg ∧ t.inputs = s.inputs ∧
    match i with
    | .rotorPin _ | .rotorHold _ | .bankComb _ | .bankHold _ | .engKey => t.pos = s.pos ∧ t.draws = s.draws
    | .rotorAdv r | .rotorReset r => t.draws = s.draws ∧ ∀ r', r' ≠ r → reg? t.pos r' = reg? s.pos r'
    | .bankAdv b | .bankReset b =>
      t.draws = s.draws ∧ t.pos.controlA = s.pos.controlA ∧ t.pos.controlB = s.pos.controlB ∧
      ∀ b', b' ≠ b → bankRegs t.pos b' = bankRegs s.pos b'
    | .engStep | .engProcess _ => t.draws = s.draws
    | .engIdle => t.pos = s.pos ∧ t.draws = s.draws + 1
    | .engReset => t.draws = s.draws + 1

/-- R126 (with R62): the external operations are exactly idle, reset and process: every step of the machine is one of
them, so no step moves a position without a reset or without returning the code masked by the key of the state
before. (That a step with no word left is `ENG.IDLE` is the model's reading, log entry 4.) -/
def Obligations.EveryStepIsIdleResetOrProcess : Prop :=
  ∀ s t : State, step s = .next t →
    (exec .engIdle { s with inputs := s.inputs.tail } = .next t ∧ t.pos = s.pos) ∨
    (exec .engReset { s with inputs := s.inputs.tail } = .next t ∧ t.pos = (State.resetOf s.cfg).pos) ∨
    ∃ (code : Nat) (key : BitVec s.cfg.k), code < 2 ^ s.cfg.dataW ∧
      exec (.engProcess code) { s with inputs := s.inputs.tail } = .next t ∧
      deriveKey s.cfg s.pos = .next key ∧
      t.out = .engOut s.cfg.rw ((BitVec.ofNat s.cfg.dataW code).setWidth s.cfg.rw ^^^ key.setWidth s.cfg.rw)

/-! ### Command words -/

/-- R62 (and R61): decode of the engine's word: `rst` first, then `process` with the code in the bits above, else
idle; for every word the port can carry. -/
def Obligations.EngineWordDecodesWithResetFirst : Prop :=
  ∀ (c : Cfg) (w : Nat), w < 2 ^ (c.dataW + 2) →
    (w.testBit 1 = true → decode c ⟨.eng, w⟩ = .ok .engReset) ∧
    (w.testBit 1 = false → w.testBit 0 = true → decode c ⟨.eng, w⟩ = .ok (.engProcess (w / 4))) ∧
    (w.testBit 1 = false → w.testBit 0 = false → decode c ⟨.eng, w⟩ = .ok .engIdle)

/-- R67 (with the masks and matches of R72): every word of every port is selected by exactly one decoded row of the
opcode table of its format, and the decoder gives that row's operation; the code field outside `ENG.PROCESS` and
the low bit of a reset are ignored. -/
def Obligations.EveryPortWordIsSelectedByExactlyOneRow : Prop :=
  (∀ (c : Cfg) (p : Port) (w : Nat), portExists c p = true → w < 2 ^ portWidth c p →
    ∃ row ∈ opcodeRows, row.selects p w = true ∧
      (∀ row' ∈ opcodeRows, row'.selects p w = true → row' = row) ∧
      ∃ i, decode c ⟨p, w⟩ = .ok i ∧ mnemonicOf i = row.mnemonic) ∧
  (∀ (c : Cfg) (p : Port) (w w' : Nat), portExists c p = true → w < 2 ^ portWidth c p → w' < 2 ^ portWidth c p →
    (w % 4 = w' % 4 ∧ w % 4 ≠ 1 ∨ 2 ≤ w % 4 ∧ 2 ≤ w' % 4) → decode c ⟨p, w⟩ = decode c ⟨p, w'⟩)

/-- Decoding the encoding of a well-formed operation gives it back, at every operand; the four operations without an
encoding are decoded from nothing; what decodes is well formed and its encoding decodes to the same operation at the
same port (R61 to R65). -/
def Obligations.DecodeOfEncodeIsTheOperation : Prop :=
  (∀ (c : Cfg) (i : Instr) (cmd : Command), i.wf c = true → encode i = some cmd → decode c cmd = .ok i) ∧
  (∀ (c : Cfg) (i : Instr), encode i = none → ∀ cmd, decode c cmd ≠ .ok i) ∧
  (∀ (c : Cfg) (i : Instr) (cmd : Command), decode c cmd = .ok i →
    i.wf c = true ∧ ∃ cmd', encode i = some cmd' ∧ cmd'.port = cmd.port ∧ decode c cmd' = .ok i)

/-- Five words written out from R61 to R64, in the configuration T2w (`DATA_W = 7`; that it is the reference is the
model's choice, log entry 2), `CW = {code, rst, process}`; and, by the model's choice of log entry 10, a word at the
port of a rotor that this configuration does not have is refused. -/
def Obligations.WrittenOutWordsDecode : Prop :=
  decode Config.reference ⟨.eng, 0b110110101⟩ = .ok (.engProcess 0b1101101) ∧
  decode Config.reference ⟨.eng, 0b000000010⟩ = .ok .engReset ∧
  decode Config.reference ⟨.eng, 0b111111100⟩ = .ok .engIdle ∧
  decode Config.reference ⟨.bank .chi, 0b01⟩ = .ok (.bankAdv .chi) ∧
  decode Config.reference ⟨.rotor (.psi 4), 0b11⟩ = .ok (.rotorReset (.psi 4)) ∧
  decode Config.reference ⟨.rotor (.psi 5), 0b01⟩ = .error (.noSuchPort (.rotor (.psi 5)))

/-- A step runs the decoded instruction (R12, R61, R62): the first word queued at the engine's port is taken and its
operation is done; with no word left the step is `ENG.IDLE` (the model's reading, log entry 4); a word the port
cannot carry is refused (log entry 10); `withFetchWord` puts a word where the next step takes it. -/
def Obligations.StepRunsTheDecodedInstruction : Prop :=
  (∀ (s : State) (w : Nat) (rest : List Nat) (i : Instr), s.inputs = w :: rest →
    decode s.cfg ⟨.eng, w⟩ = .ok i → step s = exec i { s with inputs := rest }) ∧
  (∀ s : State, s.inputs = [] → step s = exec .engIdle s) ∧
  (∀ (s : State) (w : Nat) (rest : List Nat), s.inputs = w :: rest → ¬ wordFits s.cfg w →
    step s = .refused .wordTooWide) ∧
  (∀ (s : State) (nbits w : Nat) (i : Instr), decode s.cfg ⟨.eng, w % 2 ^ nbits⟩ = .ok i →
    step (s.withFetchWord nbits w) = exec i s)

/-! ### Configuration -/

/-- R10 and R135: elaboration builds an engine, in its power-on state, exactly from the well-formed configurations;
every other one raises `InvalidConfiguration`, and no engine exists; no run-time command raises it. -/
def Obligations.ElaborationAloneRaisesInvalidConfiguration : Prop :=
  (∀ raw : RawCfg,
    ((1 ≤ raw.bankPsi.length ∧ 1 ≤ raw.dataW ∧ raw.bankPsi.length = raw.bankChi.length ∧
        ∀ r t, rawTable? raw r = some t → 1 ≤ t.length) →
      ∃ c : Cfg, c.raw = raw ∧ elaborate raw = .next (State.powerOn c)) ∧
    (¬ (1 ≤ raw.bankPsi.length ∧ 1 ≤ raw.dataW ∧ raw.bankPsi.length = raw.bankChi.length ∧
        ∀ r t, rawTable? raw r = some t → 1 ≤ t.length) →
      ∃ cause, elaborate raw = .refused (.invalidConfiguration cause))) ∧
  (∀ (i : Instr) (s : State) (cause : ConfigCause), exec i s ≠ .refused (.invalidConfiguration cause)) ∧
  (∀ (s : State) (cause : ConfigCause), step s ≠ .refused (.invalidConfiguration cause))

/-- R136: the cause reported, in the order of its table: the first empty rotor in the order A, B, Psi, Chi; else an
empty bank, Psi before Chi; else banks of different sizes; else `DATA_W = 0`. -/
def Obligations.ElaborationReportsTheFirstCause : Prop :=
  ∀ (raw : RawCfg) (cause : ConfigCause),
    elaborate raw = .refused (.invalidConfiguration cause) ↔
      match cause with
      | .emptyRotor .controlA => raw.controlA = []
      | .emptyRotor .controlB => raw.controlA ≠ [] ∧ raw.controlB = []
      | .emptyRotor (.psi i)  =>
        raw.controlA ≠ [] ∧ raw.controlB ≠ [] ∧ raw.bankPsi[i]? = some [] ∧ ∀ j < i, raw.bankPsi[j]? ≠ some []
      | .emptyRotor (.chi i)  =>
        raw.controlA ≠ [] ∧ raw.controlB ≠ [] ∧ (∀ t ∈ raw.bankPsi, t ≠ []) ∧
        raw.bankChi[i]? = some [] ∧ ∀ j < i, raw.bankChi[j]? ≠ some []
      | .emptyBank .psi       => (∀ r, rawTable? raw r ≠ some []) ∧ raw.bankPsi = []
      | .emptyBank .chi       => (∀ r, rawTable? raw r ≠ some []) ∧ raw.bankPsi ≠ [] ∧ raw.bankChi = []
      | .widthMismatch        =>
        (∀ r, rawTable? raw r ≠ some []) ∧ raw.bankPsi ≠ [] ∧ raw.bankChi ≠ [] ∧
        raw.bankPsi.length ≠ raw.bankChi.length
      | .badWidth             =>
        (∀ r, rawTable? raw r ≠ some []) ∧ raw.bankPsi ≠ [] ∧ raw.bankChi ≠ [] ∧
        raw.bankPsi.length = raw.bankChi.length ∧ raw.dataW = 0

/-- R21 (with G3): `PW_r = clog2(N_r)` is the least number of bits that holds `N_r - 1`: the least `w` with
`2^w >= N_r`; every position of a ready engine fits in it, and a rotor of one pin needs no bits. -/
def Obligations.PositionsFitTheirRegisterWidth : Prop :=
  (∀ n w, 1 ≤ n → (clog2 n ≤ w ↔ n ≤ 2 ^ w)) ∧
  (∀ (s : State) (r : RotorId) (t : PinTable) (p : Nat), Ready s → table? s.cfg r = some t →
    reg? s.pos r = some (some p) → p < 2 ^ positionWidth t ∧ (t.length = 1 → positionWidth t = 0 ∧ p = 0))
end

