-- ==== Sys2Proof/Laws/State.lean ====
section
/-! SUPPORT. The small lemmas of the state: what each field is after each update, and registers read after a write. -/

namespace Sys2Proof.Machine

/-! ### Field updates of State -/

@[simp] theorem withFreeResult_cfg (s : State) : (withFreeResult s).cfg = s.cfg := rfl
@[simp] theorem withFreeResult_pos (s : State) : (withFreeResult s).pos = s.pos := rfl
@[simp] theorem withFreeResult_inputs (s : State) : (withFreeResult s).inputs = s.inputs := rfl
@[simp] theorem withFreeResult_draws (s : State) : (withFreeResult s).draws = s.draws + 1 := rfl
@[simp] theorem withFreeResult_out (s : State) :
    (withFreeResult s).out = .engOut s.cfg.rw (Config.freeResult s.cfg.rw s.draws) := rfl

@[simp] theorem withFetchWord_cfg (s : State) (n w : Nat) : (s.withFetchWord n w).cfg = s.cfg := rfl
@[simp] theorem withFetchWord_pos (s : State) (n w : Nat) : (s.withFetchWord n w).pos = s.pos := rfl
@[simp] theorem withFetchWord_inputs (s : State) (n w : Nat) :
    (s.withFetchWord n w).inputs = (w % 2 ^ n) :: s.inputs := rfl
@[simp] theorem withFetchWord_out (s : State) (n w : Nat) : (s.withFetchWord n w).out = s.out := rfl
@[simp] theorem withFetchWord_draws (s : State) (n w : Nat) : (s.withFetchWord n w).draws = s.draws := rfl

@[simp] theorem resetOf_cfg (c : Cfg) : (State.resetOf c).cfg = c := rfl
@[simp] theorem powerOn_cfg (c : Cfg) : (State.powerOn c).cfg = c := rfl

/-! ### Field updates of Positions -/

@[simp] theorem setReg_controlA_controlA (g : Positions) (v : Option Nat) : (setReg g .controlA v).controlA = v := rfl
@[simp] theorem setReg_controlA_controlB (g : Positions) (v : Option Nat) :
    (setReg g .controlA v).controlB = g.controlB := rfl
@[simp] theorem setReg_controlA_psi (g : Positions) (v : Option Nat) : (setReg g .controlA v).psi = g.psi := rfl
@[simp] theorem setReg_controlA_chi (g : Positions) (v : Option Nat) : (setReg g .controlA v).chi = g.chi := rfl
@[simp] theorem setReg_controlB_controlA (g : Positions) (v : Option Nat) :
    (setReg g .controlB v).controlA = g.controlA := rfl
@[simp] theorem setReg_controlB_controlB (g : Positions) (v : Option Nat) : (setReg g .controlB v).controlB = v := rfl
@[simp] theorem setReg_controlB_psi (g : Positions) (v : Option Nat) : (setReg g .controlB v).psi = g.psi := rfl
@[simp] theorem setReg_controlB_chi (g : Positions) (v : Option Nat) : (setReg g .controlB v).chi = g.chi := rfl
@[simp] theorem setReg_psi_controlA (g : Positions) (i : Nat) (v : Option Nat) :
    (setReg g (.psi i) v).controlA = g.controlA := rfl
@[simp] theorem setReg_psi_controlB (g : Positions) (i : Nat) (v : Option Nat) :
    (setReg g (.psi i) v).controlB = g.controlB := rfl
@[simp] theorem setReg_psi_psi (g : Positions) (i : Nat) (v : Option Nat) :
    (setReg g (.psi i) v).psi = g.psi.set i v := rfl
@[simp] theorem setReg_psi_chi (g : Positions) (i : Nat) (v : Option Nat) : (setReg g (.psi i) v).chi = g.chi := rfl
@[simp] theorem setReg_chi_controlA (g : Positions) (i : Nat) (v : Option Nat) :
    (setReg g (.chi i) v).controlA = g.controlA := rfl
@[simp] theorem setReg_chi_controlB (g : Positions) (i : Nat) (v : Option Nat) :
    (setReg g (.chi i) v).controlB = g.controlB := rfl
@[simp] theorem setReg_chi_psi (g : Positions) (i : Nat) (v : Option Nat) : (setReg g (.chi i) v).psi = g.psi := rfl
@[simp] theorem setReg_chi_chi (g : Positions) (i : Nat) (v : Option Nat) :
    (setReg g (.chi i) v).chi = g.chi.set i v := rfl

@[simp] theorem setBankRegs_controlA (g : Positions) (b : BankId) (qs : List (Option Nat)) :
    (setBankRegs g b qs).controlA = g.controlA := by cases b <;> rfl
@[simp] theorem setBankRegs_controlB (g : Positions) (b : BankId) (qs : List (Option Nat)) :
    (setBankRegs g b qs).controlB = g.controlB := by cases b <;> rfl
@[simp] theorem setBankRegs_psi_psi (g : Positions) (qs : List (Option Nat)) : (setBankRegs g .psi qs).psi = qs := rfl
@[simp] theorem setBankRegs_psi_chi (g : Positions) (qs : List (Option Nat)) :
    (setBankRegs g .psi qs).chi = g.chi := rfl
@[simp] theorem setBankRegs_chi_psi (g : Positions) (qs : List (Option Nat)) :
    (setBankRegs g .chi qs).psi = g.psi := rfl
@[simp] theorem setBankRegs_chi_chi (g : Positions) (qs : List (Option Nat)) : (setBankRegs g .chi qs).chi = qs := rfl

@[simp] theorem bankRegs_setBankRegs (g : Positions) (b : BankId) (qs : List (Option Nat)) :
    bankRegs (setBankRegs g b qs) b = qs := by cases b <;> rfl

@[simp] theorem setBankRegs_bankRegs (g : Positions) (b : BankId) : setBankRegs g b (bankRegs g b) = g := by
  cases b <;> rfl

/-! ### A register read after a write -/

/-- The register written reads back, where it exists. -/
theorem reg?_setReg_self {g : Positions} {r : RotorId} {q : Option Nat} (h : reg? g r = some q) (v : Option Nat) :
    reg? (setReg g r v) r = some v := by
  cases r with
  | controlA => rfl
  | controlB => rfl
  | psi i => obtain ⟨hi, -⟩ := List.getElem?_eq_some_iff.1 h; exact List.getElem?_set_self hi
  | chi i => obtain ⟨hi, -⟩ := List.getElem?_eq_some_iff.1 h; exact List.getElem?_set_self hi

/-- A write to one register changes no other (R21). -/
theorem reg?_setReg_other {g : Positions} {r r' : RotorId} (h : r' ≠ r) (v : Option Nat) :
    reg? (setReg g r v) r' = reg? g r' := by
  cases r <;> cases r' <;> first
    | rfl
    | exact absurd rfl h
    | exact List.getElem?_set_ne (fun e => h (by rw [e]))

/-- Writing a register's own value changes nothing (R82). -/
theorem setReg_reg? {g : Positions} {r : RotorId} {q : Option Nat} (h : reg? g r = some q) : setReg g r q = g := by
  cases r with
  | controlA => cases h; rfl
  | controlB => cases h; rfl
  | psi i =>
    obtain ⟨hi, e⟩ := List.getElem?_eq_some_iff.1 h
    subst e
    simp [setReg]
  | chi i =>
    obtain ⟨hi, e⟩ := List.getElem?_eq_some_iff.1 h
    subst e
    simp [setReg]

end Sys2Proof.Machine
end

