-- ==== Sys2Proof/Laws/Ops.lean ====
section
/-! SUPPORT. One lemma for each shared operation: everything it can do. Later proofs cite these and do not unfold the
operations. -/

namespace Sys2Proof.Machine

/-! ### Sequencing -/

@[simp] theorem andThen_next {α β : Type} (a : α) (f : α → Answer β) : andThen (.next a) f = f a := rfl
@[simp] theorem andThen_fault {α β : Type} (e : Fault) (f : α → Answer β) : andThen (.fault e) f = .fault e := rfl
@[simp] theorem andThen_refused {α β : Type} (e : Refusal) (f : α → Answer β) :
    andThen (.refused e) f = .refused e := rfl

/-- A sequence answers a value exactly when each part does. -/
theorem andThen_eq_next {α β : Type} {x : Answer α} {f : α → Answer β} {b : β} :
    andThen x f = .next b ↔ ∃ a, x = .next a ∧ f a = .next b := by
  cases x <;> simp [andThen]

/-! ### One rotor cell -/

theorem readPos_eq_next {t : PinTable} {q : Option Nat} {p : Nat} :
    readPos t q = .next p ↔ q = some p ∧ p < t.length := by
  cases q with
  | none => simp [readPos]
  | some p' => simp only [readPos]; split <;> simp <;> omega

theorem pinRead_eq_next {t : PinTable} {p : Nat} {b : Bit} : pinRead t p = .next b ↔ t[p]? = some b := by
  unfold pinRead; split <;> simp_all

theorem currentPin_eq_next {t : PinTable} {q : Option Nat} {b : Bit} :
    currentPin t q = .next b ↔ ∃ p, q = some p ∧ t[p]? = some b := by
  simp only [currentPin, andThen_eq_next, readPos_eq_next, pinRead_eq_next]
  constructor
  · rintro ⟨p, ⟨rfl, -⟩, h⟩; exact ⟨p, rfl, h⟩
  · rintro ⟨p, rfl, h⟩; exact ⟨p, ⟨rfl, (List.getElem?_eq_some_iff.1 h).1⟩, h⟩

theorem advanceReg_eq_next {t : PinTable} {q v : Option Nat} :
    advanceReg t q = .next v ↔ ∃ p, q = some p ∧ p < t.length ∧ v = some (nextPos t.length p) := by
  simp only [advanceReg, andThen_eq_next, readPos_eq_next, Host.Outcome.next.injEq]
  constructor
  · rintro ⟨p, ⟨rfl, hp⟩, rfl⟩; exact ⟨p, rfl, hp, rfl⟩
  · rintro ⟨p, rfl, hp, rfl⟩; exact ⟨p, ⟨rfl, hp⟩, rfl⟩

theorem inRange_iff {t : PinTable} {q : Option Nat} : inRange t q = true ↔ ∃ p, q = some p ∧ p < t.length := by
  cases q <;> simp [inRange]

/-- On a register in range the advance is `bump` (R81). -/
theorem advanceReg_of_inRange {t : PinTable} {q : Option Nat} (h : inRange t q = true) :
    advanceReg t q = .next (bump t q) := by
  obtain ⟨p, rfl, hp⟩ := inRange_iff.1 h
  exact advanceReg_eq_next.2 ⟨p, rfl, hp, rfl⟩

/-- On a register in range the pin is the table's bit (R80). -/
theorem currentPin_of_inRange {t : PinTable} {q : Option Nat} (h : inRange t q = true) :
    ∃ b, currentPin t q = .next b := by
  obtain ⟨p, rfl, hp⟩ := inRange_iff.1 h
  exact ⟨t[p], currentPin_eq_next.2 ⟨p, rfl, List.getElem?_eq_getElem hp⟩⟩

/-- The advance of a register that is not above the table's end stays in range (R22). -/
theorem nextPos_lt {n : Nat} (h : 0 < n) (p : Nat) : nextPos n p < n := Nat.mod_lt _ h

/-- The division-free form of R81. -/
theorem nextPos_eq {n p : Nat} (h : p < n) : nextPos n p = if p = n - 1 then 0 else p + 1 := by
  unfold nextPos
  split
  · rename_i e; subst e; rw [Nat.sub_add_cancel (by omega), Nat.mod_self]
  · exact Nat.mod_eq_of_lt (by omega)

theorem inRange_bump {t : PinTable} {q : Option Nat} (h : inRange t q = true) : inRange t (bump t q) = true := by
  obtain ⟨p, rfl, hp⟩ := inRange_iff.1 h
  exact inRange_iff.2 ⟨_, rfl, nextPos_lt (by omega) p⟩

/-! ### Rotors by name -/

theorem rotorOf_eq_next {c : Cfg} {g : Positions} {r : RotorId} {t : PinTable} {q : Option Nat} :
    rotorOf c g r = .next (t, q) ↔ table? c r = some t ∧ reg? g r = some q := by
  unfold rotorOf
  cases table? c r with
  | none => simp
  | some t' => cases reg? g r <;> simp

theorem rotorPin_eq_next {c : Cfg} {g : Positions} {r : RotorId} {b : Bit} :
    rotorPin c g r = .next b ↔
      ∃ t p, table? c r = some t ∧ reg? g r = some (some p) ∧ t[p]? = some b := by
  simp only [rotorPin, andThen_eq_next, Prod.exists, rotorOf_eq_next, currentPin_eq_next]
  constructor
  · rintro ⟨t, q, ⟨ht, hq⟩, p, rfl, hb⟩; exact ⟨t, p, ht, hq, hb⟩
  · rintro ⟨t, p, ht, hq, hb⟩; exact ⟨t, _, ⟨ht, hq⟩, p, rfl, hb⟩

theorem advanceRotor_eq_next {c : Cfg} {g g' : Positions} {r : RotorId} :
    advanceRotor c r g = .next g' ↔
      ∃ t p, table? c r = some t ∧ reg? g r = some (some p) ∧ p < t.length ∧
        g' = setReg g r (some (nextPos t.length p)) := by
  simp only [advanceRotor, andThen_eq_next, Prod.exists, rotorOf_eq_next, advanceReg_eq_next,
    Host.Outcome.next.injEq]
  constructor
  · rintro ⟨t, q, ⟨ht, hq⟩, v, ⟨p, rfl, hp, rfl⟩, rfl⟩; exact ⟨t, p, ht, hq, hp, rfl⟩
  · rintro ⟨t, p, ht, hq, hp, rfl⟩; exact ⟨t, _, ⟨ht, hq⟩, _, ⟨p, rfl, hp, rfl⟩, rfl⟩

theorem holdRotor_eq_next {c : Cfg} {g g' : Positions} {r : RotorId} :
    holdRotor c r g = .next g' ↔ (∃ t q, table? c r = some t ∧ reg? g r = some q) ∧ g' = g := by
  simp only [holdRotor, andThen_eq_next, Prod.exists, rotorOf_eq_next, Host.Outcome.next.injEq]
  constructor
  · rintro ⟨t, q, ⟨ht, hq⟩, rfl⟩; exact ⟨⟨t, q, ht, hq⟩, setReg_reg? hq⟩
  · rintro ⟨⟨t, q, ht, hq⟩, rfl⟩; exact ⟨t, q, ⟨ht, hq⟩, setReg_reg? hq⟩

theorem resetRotor_eq_next {c : Cfg} {g g' : Positions} {r : RotorId} :
    resetRotor c r g = .next g' ↔
      (∃ t q, table? c r = some t ∧ reg? g r = some q) ∧ g' = setReg g r (some 0) := by
  simp only [resetRotor, andThen_eq_next, Prod.exists, rotorOf_eq_next, Host.Outcome.next.injEq, resetReg]
  constructor
  · rintro ⟨t, q, ⟨ht, hq⟩, rfl⟩; exact ⟨⟨t, q, ht, hq⟩, rfl⟩
  · rintro ⟨⟨t, q, ht, hq⟩, rfl⟩; exact ⟨t, q, ⟨ht, hq⟩, rfl⟩

/-- Every rotor of a configuration has at least one pin (R10). -/
theorem table?_length_pos {c : Cfg} {r : RotorId} {t : PinTable} (h : table? c r = some t) : 0 < t.length := by
  obtain ⟨-, -, -, hA, hB, hP, hC⟩ := c.wf
  cases r <;> simp only [table?, rawTable?, Option.some.injEq] at h
  · subst h; exact hA
  · subst h; exact hB
  · exact hP _ (List.mem_of_getElem? h)
  · exact hC _ (List.mem_of_getElem? h)

/-- A rotor exists in a configuration exactly when it has a pin table there (R8). -/
theorem existsIn_iff_table? {c : Cfg} {r : RotorId} : r.existsIn c = true ↔ ∃ t, table? c r = some t := by
  have hk : c.raw.bankChi.length = c.raw.bankPsi.length := c.wf.2.1
  cases r with
  | controlA => simp [RotorId.existsIn, table?, rawTable?]
  | controlB => simp [RotorId.existsIn, table?, rawTable?]
  | psi i =>
    exact ⟨fun h => ⟨_, List.getElem?_eq_getElem (of_decide_eq_true h)⟩,
      fun ⟨t, h⟩ => decide_eq_true (List.getElem?_eq_some_iff.1 h).1⟩
  | chi i =>
    exact ⟨fun h => ⟨_, List.getElem?_eq_getElem (Nat.lt_of_lt_of_eq (of_decide_eq_true h) hk.symm)⟩,
      fun ⟨t, h⟩ => decide_eq_true (Nat.lt_of_lt_of_eq (List.getElem?_eq_some_iff.1 h).1 hk)⟩

/-- Positions with the same register for every rotor name are the same. -/
theorem positions_ext {g g' : Positions} (h : ∀ r, reg? g r = reg? g' r) : g = g' := by
  obtain ⟨a, b, p, q⟩ := g
  obtain ⟨a', b', p', q'⟩ := g'
  obtain rfl : a = a' := Option.some.inj (h .controlA)
  obtain rfl : b = b' := Option.some.inj (h .controlB)
  obtain rfl : p = p' := List.ext_getElem? fun i => h (.psi i)
  obtain rfl : q = q' := List.ext_getElem? fun i => h (.chi i)
  rfl

/-! ### The members of a bank -/

/-- Each bank has `K` members (R7). -/
theorem bankTables_length (c : Cfg) (b : BankId) : (bankTables c b).length = c.k := by
  cases b with
  | psi => rfl
  | chi => exact c.wf.2.1

/-- Every member of a bank has at least one pin (R10). -/
theorem bankTables_length_pos (c : Cfg) (b : BankId) : ∀ t ∈ bankTables c b, 1 ≤ t.length := by
  obtain ⟨-, -, -, -, -, hP, hC⟩ := c.wf
  cases b with
  | psi => exact hP
  | chi => exact hC

/-- A check of every member gives one register per member. -/
theorem membersAll_length {ok : PinTable → Option Nat → Bool} {ts : List PinTable} {qs : List (Option Nat)}
    (h : membersAll ok ts qs = true) : qs.length = ts.length := by
  induction ts generalizing qs with
  | nil => cases qs <;> simp_all [membersAll]
  | cons t ts ih =>
    cases qs with
    | nil => simp [membersAll] at h
    | cons q qs =>
      simp only [membersAll, Bool.and_eq_true] at h
      simp [ih h.2]

/-- A check of every member, member by member. -/
theorem membersAll_iff {ok : PinTable → Option Nat → Bool} {ts : List PinTable} {qs : List (Option Nat)} :
    membersAll ok ts qs = true ↔
      qs.length = ts.length ∧ ∀ (i : Nat) t q, ts[i]? = some t → qs[i]? = some q → ok t q = true := by
  induction ts generalizing qs with
  | nil => cases qs <;> simp [membersAll]
  | cons t ts ih =>
    cases qs with
    | nil => simp [membersAll]
    | cons q qs =>
      simp only [membersAll, Bool.and_eq_true, ih, List.length_cons, Nat.add_right_cancel_iff]
      constructor
      · rintro ⟨h0, hl, h⟩
        refine ⟨hl, fun i t' q' ht hq => ?_⟩
        cases i with
        | zero => simp at ht hq; subst ht hq; exact h0
        | succ i => exact h i t' q' (by simpa using ht) (by simpa using hq)
      · rintro ⟨hl, h⟩
        exact ⟨h 0 t q rfl rfl, hl, fun i t' q' ht hq => h (i + 1) t' q' (by simpa using ht) (by simpa using hq)⟩

/-- Where every member's register is in range, the bank's advance is `bump` on each (R91). -/
theorem advanceMembers_of_inRange {ts : List PinTable} {qs : List (Option Nat)}
    (h : membersAll inRange ts qs = true) : advanceMembers ts qs = .next (List.zipWith bump ts qs) := by
  induction ts generalizing qs with
  | nil => cases qs <;> simp_all [membersAll, advanceMembers]
  | cons t ts ih =>
    cases qs with
    | nil => simp [membersAll] at h
    | cons q qs =>
      simp only [membersAll, Bool.and_eq_true] at h
      simp [advanceMembers, advanceReg_of_inRange h.1, ih h.2]

/-- The bank's advance answers only where every member's register is in range. -/
theorem advanceMembers_eq_next {ts : List PinTable} {qs vs : List (Option Nat)} :
    advanceMembers ts qs = .next vs ↔ membersAll inRange ts qs = true ∧ vs = List.zipWith bump ts qs := by
  constructor
  · intro h
    have hin : membersAll inRange ts qs = true := by
      induction ts generalizing qs vs with
      | nil => cases qs <;> simp_all [membersAll, advanceMembers]
      | cons t ts ih =>
        cases qs with
        | nil => simp [advanceMembers] at h
        | cons q qs =>
          simp only [advanceMembers, andThen_eq_next] at h
          obtain ⟨v, hv, ws, hw, -⟩ := h
          obtain ⟨p, rfl, hp, -⟩ := advanceReg_eq_next.1 hv
          simp [membersAll, ih hw, inRange, hp]
    exact ⟨hin, by simpa using (advanceMembers_of_inRange hin).symm.trans h |>.symm⟩
  · rintro ⟨h, rfl⟩; exact advanceMembers_of_inRange h

/-- The members' pins answer exactly the bit each table has at its register (R90). -/
theorem memberPins_eq_next {ts : List PinTable} {qs : List (Option Nat)} {bs : List Bit} :
    memberPins ts qs = .next bs ↔
      qs.length = ts.length ∧ bs.length = ts.length ∧
      ∀ (i : Nat) t q, ts[i]? = some t → qs[i]? = some q → ∃ b, bs[i]? = some b ∧ currentPin t q = .next b := by
  induction ts generalizing qs bs with
  | nil => cases qs <;> cases bs <;> simp [memberPins]
  | cons t ts ih =>
    cases qs with
    | nil => simp [memberPins]
    | cons q qs =>
      simp only [memberPins, andThen_eq_next, ih, Host.Outcome.next.injEq, List.length_cons]
      constructor
      · rintro ⟨b, hb, bs', ⟨hl, hl', h⟩, rfl⟩
        refine ⟨by omega, by simp [hl'], fun i t' q' ht hq => ?_⟩
        cases i with
        | zero => simp at ht hq; subst ht hq; exact ⟨b, rfl, hb⟩
        | succ i => simpa using h i t' q' (by simpa using ht) (by simpa using hq)
      · rintro ⟨hl, hl', h⟩
        cases bs with
        | nil => simp at hl'
        | cons b bs =>
          obtain ⟨b', e, hb⟩ := h 0 t q rfl rfl
          simp at e; subst e
          refine ⟨b, hb, bs, ⟨by omega, by simpa using hl', fun i t' q' ht hq => ?_⟩, rfl⟩
          simpa using h (i + 1) t' q' (by simpa using ht) (by simpa using hq)

/-- Where every member's register is in range, every pin can be read (R90). -/
theorem memberPins_of_inRange {ts : List PinTable} {qs : List (Option Nat)} (h : membersAll inRange ts qs = true) :
    ∃ bs, memberPins ts qs = .next bs := by
  induction ts generalizing qs with
  | nil => cases qs <;> simp_all [membersAll, memberPins]
  | cons t ts ih =>
    cases qs with
    | nil => simp [membersAll] at h
    | cons q qs =>
      simp only [membersAll, Bool.and_eq_true] at h
      obtain ⟨b, hb⟩ := currentPin_of_inRange h.1
      obtain ⟨bs, hbs⟩ := ih h.2
      exact ⟨b :: bs, by simp [memberPins, hb, hbs]⟩

theorem advanceBank_eq_next {c : Cfg} {b : BankId} {g g' : Positions} :
    advanceBank c b g = .next g' ↔
      membersAll inRange (bankTables c b) (bankRegs g b) = true ∧
      g' = setBankRegs g b (List.zipWith bump (bankTables c b) (bankRegs g b)) := by
  simp only [advanceBank, andThen_eq_next, advanceMembers_eq_next, Host.Outcome.next.injEq]
  constructor
  · rintro ⟨vs, ⟨h, rfl⟩, rfl⟩; exact ⟨h, rfl⟩
  · rintro ⟨h, rfl⟩; exact ⟨_, ⟨h, rfl⟩, rfl⟩

/-- A bank advanced from registers in range has its registers in range (R94). -/
theorem membersAll_inRange_bump {ts : List PinTable} {qs : List (Option Nat)}
    (h : membersAll inRange ts qs = true) : membersAll inRange ts (List.zipWith bump ts qs) = true := by
  induction ts generalizing qs with
  | nil => cases qs <;> simp_all [membersAll]
  | cons t ts ih =>
    cases qs with
    | nil => simp [membersAll] at h
    | cons q qs =>
      simp only [membersAll, Bool.and_eq_true] at h
      simp [membersAll, inRange_bump h.1, ih h.2]

/-- A bank just reset has its registers in range (R93, R94). -/
theorem membersAll_inRange_reset {ts : List PinTable} (h : ∀ t ∈ ts, 1 ≤ t.length) :
    membersAll inRange ts (ts.map fun _ => resetReg) = true := by
  induction ts with
  | nil => rfl
  | cons t ts ih =>
    simp only [List.mem_cons, forall_eq_or_imp] at h
    simp only [List.map_cons, membersAll, Bool.and_eq_true]
    exact ⟨decide_eq_true h.1, ih h.2⟩

/-! ### The bank's bit order and the key -/

/-- The aggregator's loop started from `acc` (R90). -/
theorem packPins_append (k : Nat) (pins : List Bit) (pin : Bit) :
    packPins k (pins ++ [pin]) = (packPins k pins <<< 1) ||| (BitVec.ofBool pin).setWidth k := by
  simp [packPins]

/-- The pin visited `i`-th of `n` lands at bit `n-1-i` (R42, R90). -/
theorem packPins_getLsbD {k : Nat} {pins : List Bit} (hk : pins.length ≤ k) {i : Nat} (hi : i < pins.length) :
    (packPins k pins).getLsbD (pins.length - 1 - i) = pins[i] := by
  induction pins using List.reverseRecOn generalizing i with
  | nil => simp at hi
  | append_singleton ps p ih =>
    simp only [List.length_append, List.length_singleton] at hk hi ⊢
    rw [packPins_append]
    by_cases h : i = ps.length
    · subst h
      simp [BitVec.getLsbD_setWidth]
      omega
    · have hi' : i < ps.length := by omega
      rw [List.getElem_append_left hi', ← ih (by omega) hi']
      have e : ps.length + 1 - 1 - i = (ps.length - 1 - i) + 1 := by omega
      rw [e]
      simp [BitVec.getLsbD_setWidth]
      omega

theorem bankComb_eq_next {c : Cfg} {g : Positions} {b : BankId} {v : BitVec c.k} :
    bankComb c g b = .next v ↔
      ∃ pins, memberPins (bankTables c b) (bankRegs g b) = .next pins ∧ v = packPins c.k pins := by
  simp only [bankComb, andThen_eq_next, Host.Outcome.next.injEq]
  constructor <;> rintro ⟨pins, h, rfl⟩ <;> exact ⟨pins, h, rfl⟩

theorem deriveKey_eq_next {c : Cfg} {g : Positions} {v : BitVec c.k} :
    deriveKey c g = .next v ↔
      ∃ psiComb chiComb, bankComb c g .psi = .next psiComb ∧ bankComb c g .chi = .next chiComb ∧
        v = psiComb ^^^ chiComb := by
  simp only [deriveKey, andThen_eq_next, Host.Outcome.next.injEq]
  constructor
  · rintro ⟨p, hp, q, hq, rfl⟩; exact ⟨p, q, hp, hq, rfl⟩
  · rintro ⟨p, q, hp, hq, rfl⟩; exact ⟨p, hp, q, hq, rfl⟩

/-- Where every member's register is in range the combined value can be read (R90). -/
theorem bankComb_of_inRange {c : Cfg} {g : Positions} {b : BankId}
    (h : membersAll inRange (bankTables c b) (bankRegs g b) = true) : ∃ v, bankComb c g b = .next v := by
  obtain ⟨pins, hp⟩ := memberPins_of_inRange h
  exact ⟨_, bankComb_eq_next.2 ⟨pins, hp, rfl⟩⟩

/-! ### All registers -/

/-- A check of all registers, group by group. -/
theorem rotorsAll_iff {ok : PinTable → Option Nat → Bool} {c : Cfg} {g : Positions} :
    rotorsAll ok c g = true ↔
      ok c.raw.controlA g.controlA = true ∧ ok c.raw.controlB g.controlB = true ∧
      membersAll ok c.raw.bankPsi g.psi = true ∧ membersAll ok c.raw.bankChi g.chi = true := by
  simp [rotorsAll, Bool.and_eq_true, and_assoc]

/-- A check of all registers holds of each bank. -/
theorem rotorsAll_bank {ok : PinTable → Option Nat → Bool} {c : Cfg} {g : Positions}
    (h : rotorsAll ok c g = true) (b : BankId) : membersAll ok (bankTables c b) (bankRegs g b) = true := by
  have := rotorsAll_iff.1 h
  cases b with
  | psi => exact this.2.2.1
  | chi => exact this.2.2.2

/-- A check of all registers holds of each rotor's register. -/
theorem rotorsAll_reg? {ok : PinTable → Option Nat → Bool} {c : Cfg} {g : Positions} {r : RotorId} {t : PinTable}
    {q : Option Nat} (h : rotorsAll ok c g = true) (ht : table? c r = some t) (hq : reg? g r = some q) :
    ok t q = true := by
  obtain ⟨hA, hB, hP, hC⟩ := rotorsAll_iff.1 h
  cases r <;> simp only [table?, rawTable?, reg?, Option.some.injEq] at ht hq
  · subst ht hq; exact hA
  · subst ht hq; exact hB
  · exact (membersAll_iff.1 hP).2 _ _ _ ht hq
  · exact (membersAll_iff.1 hC).2 _ _ _ ht hq

/-- Under a check of all registers every rotor has a register. -/
theorem rotorsAll_reg?_exists {ok : PinTable → Option Nat → Bool} {c : Cfg} {g : Positions} {r : RotorId}
    {t : PinTable} (h : rotorsAll ok c g = true) (ht : table? c r = some t) : ∃ q, reg? g r = some q := by
  obtain ⟨-, -, hP, hC⟩ := rotorsAll_iff.1 h
  cases r with
  | controlA => exact ⟨_, rfl⟩
  | controlB => exact ⟨_, rfl⟩
  | psi i =>
    have := (List.getElem?_eq_some_iff.1 ht).1
    exact ⟨_, List.getElem?_eq_getElem (by rw [membersAll_length hP]; exact this)⟩
  | chi i =>
    have := (List.getElem?_eq_some_iff.1 ht).1
    exact ⟨_, List.getElem?_eq_getElem (by rw [membersAll_length hC]; exact this)⟩

/-! ### The stepping protocol -/

/-- `mA` depends on `controlA`'s register alone, so no other group's advance changes it (R106). -/
theorem mA_congr {c : Cfg} {g g' : Positions} (h : g.controlA = g'.controlA) : mA c g = mA c g' := by
  simp [mA, rotorPin, rotorOf, table?, rawTable?, reg?, h]

/-- `mB` depends on `controlB`'s register alone (R106). -/
theorem mB_congr {c : Cfg} {g g' : Positions} (h : g.controlB = g'.controlB) : mB c g = mB c g' := by
  simp [mB, rotorPin, rotorOf, table?, rawTable?, reg?, h]

/-- The protocol answers exactly through its four parts, in their order (R105). -/
theorem stepProtocol_eq_next {c : Cfg} {g g' : Positions} :
    stepProtocol c g = .next g' ↔
      ∃ g1 b g2 a g3, advanceBank c .chi g = .next g1 ∧ mB c g1 = .next b ∧
        (if b = true then advanceBank c .psi g1 else .next g1) = .next g2 ∧ mA c g2 = .next a ∧
        (if a = true then advanceRotor c .controlB g2 else .next g2) = .next g3 ∧
        advanceRotor c .controlA g3 = .next g' := by
  simp only [stepProtocol, andThen_eq_next]
  constructor
  · rintro ⟨g1, h1, b, hb, g2, h2, a, ha, g3, h3, h4⟩; exact ⟨g1, b, g2, a, g3, h1, hb, h2, ha, h3, h4⟩
  · rintro ⟨g1, b, g2, a, g3, h1, hb, h2, ha, h3, h4⟩; exact ⟨g1, h1, b, hb, g2, h2, a, ha, g3, h3, h4⟩

/-! ### Where every register holds a value, nothing is refused (R43, U2) -/

/-- The answer is a value or a fault. -/
def NotRefused {α : Type} (x : Answer α) : Prop := ∀ e, x ≠ .refused e

@[simp] theorem notRefused_next {α : Type} (a : α) : NotRefused (.next a : Answer α) := nofun
@[simp] theorem notRefused_fault {α : Type} (e : Fault) : NotRefused (.fault e : Answer α) := nofun

/-- What neither answers nor refuses faults, with the one fault there is. -/
theorem eq_fault_of_notRefused {α : Type} {x : Answer α} (hr : NotRefused x) (hn : ∀ a, x ≠ .next a) :
    x = .fault .positionOutOfRange := by
  cases x with
  | next a    => exact absurd rfl (hn a)
  | fault e   => cases e; rfl
  | refused e => exact absurd rfl (hr e)

theorem andThen_notRefused {α β : Type} {x : Answer α} {f : α → Answer β} (hx : NotRefused x)
    (hf : ∀ a, x = .next a → NotRefused (f a)) : NotRefused (andThen x f) := by
  cases x with
  | next a    => exact hf a rfl
  | fault e   => simp
  | refused e => exact absurd rfl (hx e)

theorem readPos_notRefused {t : PinTable} {q : Option Nat} (h : q.isSome = true) : NotRefused (readPos t q) := by
  obtain ⟨p, rfl⟩ := Option.isSome_iff_exists.1 h
  intro e; simp only [readPos]; split <;> simp

theorem currentPin_notRefused {t : PinTable} {q : Option Nat} (h : q.isSome = true) :
    NotRefused (currentPin t q) :=
  andThen_notRefused (readPos_notRefused h) fun p _ e => by unfold pinRead; split <;> simp

theorem advanceReg_notRefused {t : PinTable} {q : Option Nat} (h : q.isSome = true) :
    NotRefused (advanceReg t q) :=
  andThen_notRefused (readPos_notRefused h) fun _ _ => by simp

theorem memberPins_notRefused {ts : List PinTable} {qs : List (Option Nat)}
    (h : membersAll (fun _ q => q.isSome) ts qs = true) : NotRefused (memberPins ts qs) := by
  induction ts generalizing qs with
  | nil => cases qs <;> simp [memberPins]
  | cons t ts ih =>
    cases qs with
    | nil => simp [memberPins]
    | cons q qs =>
      simp only [membersAll, Bool.and_eq_true] at h
      exact andThen_notRefused (currentPin_notRefused h.1) fun _ _ =>
        andThen_notRefused (ih h.2) fun _ _ => by simp

theorem advanceMembers_notRefused {ts : List PinTable} {qs : List (Option Nat)}
    (h : membersAll (fun _ q => q.isSome) ts qs = true) : NotRefused (advanceMembers ts qs) := by
  induction ts generalizing qs with
  | nil => cases qs <;> simp [advanceMembers]
  | cons t ts ih =>
    cases qs with
    | nil => simp [advanceMembers]
    | cons q qs =>
      simp only [membersAll, Bool.and_eq_true] at h
      exact andThen_notRefused (advanceReg_notRefused h.1) fun _ _ =>
        andThen_notRefused (ih h.2) fun _ _ => by simp

theorem advanceBank_notRefused {c : Cfg} {b : BankId} {g : Positions}
    (h : membersAll (fun _ q => q.isSome) (bankTables c b) (bankRegs g b) = true) :
    NotRefused (advanceBank c b g) :=
  andThen_notRefused (advanceMembers_notRefused h) fun _ _ => by simp

theorem bankComb_notRefused {c : Cfg} {b : BankId} {g : Positions}
    (h : membersAll (fun _ q => q.isSome) (bankTables c b) (bankRegs g b) = true) : NotRefused (bankComb c g b) :=
  andThen_notRefused (memberPins_notRefused h) fun _ _ => by simp

theorem deriveKey_notRefused {c : Cfg} {g : Positions} (h : rotorsAll (fun _ q => q.isSome) c g = true) :
    NotRefused (deriveKey c g) :=
  andThen_notRefused (bankComb_notRefused (rotorsAll_bank h .psi)) fun _ _ =>
    andThen_notRefused (bankComb_notRefused (rotorsAll_bank h .chi)) fun _ _ => by simp

theorem rotorOf_notRefused {c : Cfg} {g : Positions} {r : RotorId} {t : PinTable} (ht : table? c r = some t) :
    NotRefused (rotorOf c g r) := by
  intro e; simp only [rotorOf, ht]; split <;> simp

theorem rotorPin_notRefused {c : Cfg} {g : Positions} {r : RotorId} {t : PinTable} {q : Option Nat}
    (ht : table? c r = some t) (hq : reg? g r = some q) (hs : q.isSome = true) : NotRefused (rotorPin c g r) :=
  andThen_notRefused (rotorOf_notRefused ht) fun tq h => by
    cases (rotorOf_eq_next.2 ⟨ht, hq⟩).symm.trans h; exact currentPin_notRefused hs

theorem advanceRotor_notRefused {c : Cfg} {g : Positions} {r : RotorId} {t : PinTable} {q : Option Nat}
    (ht : table? c r = some t) (hq : reg? g r = some q) (hs : q.isSome = true) :
    NotRefused (advanceRotor c r g) :=
  andThen_notRefused (rotorOf_notRefused ht) fun tq h => by
    cases (rotorOf_eq_next.2 ⟨ht, hq⟩).symm.trans h
    exact andThen_notRefused (advanceReg_notRefused hs) fun _ _ => by simp

/-- A value that is already there is not refused, whichever way the condition goes. -/
theorem ite_notRefused {α : Type} {b : Bit} {x : Answer α} {a : α} (hx : NotRefused x) :
    NotRefused (if b = true then x else .next a) := by
  cases b
  · simp
  · exact hx

theorem stepProtocol_notRefused {c : Cfg} {g : Positions} (h : rotorsAll (fun _ q => q.isSome) c g = true) :
    NotRefused (stepProtocol c g) := by
  obtain ⟨hA, hB, -, -⟩ := rotorsAll_iff.1 h
  refine andThen_notRefused (advanceBank_notRefused (rotorsAll_bank h .chi)) fun g1 h1 => ?_
  obtain ⟨-, rfl⟩ := advanceBank_eq_next.1 h1
  refine andThen_notRefused (rotorPin_notRefused (r := .controlB) rfl rfl hB) fun b _ => ?_
  refine andThen_notRefused (ite_notRefused (advanceBank_notRefused (rotorsAll_bank h .psi))) fun g2 h2 => ?_
  have e2 : g2.controlA = g.controlA ∧ g2.controlB = g.controlB := by
    cases b
    · cases h2; exact ⟨rfl, rfl⟩
    · obtain ⟨-, rfl⟩ := advanceBank_eq_next.1 h2; exact ⟨rfl, rfl⟩
  rw [← e2.1] at hA
  rw [← e2.2] at hB
  refine andThen_notRefused (rotorPin_notRefused (r := .controlA) rfl rfl hA) fun a _ => ?_
  refine andThen_notRefused (ite_notRefused (advanceRotor_notRefused (r := .controlB) rfl rfl hB)) fun g3 h3 => ?_
  have e3 : g3.controlA = g2.controlA := by
    cases a
    · cases h3; rfl
    · obtain ⟨_, _, -, -, -, rfl⟩ := advanceRotor_eq_next.1 h3; rfl
  rw [← e3] at hA
  exact advanceRotor_notRefused (r := .controlA) rfl rfl hA

end Sys2Proof.Machine
end

