-- ==== Sys2Proof/Laws/Exec.lean ====
section
/-! SUPPORT. One inversion lemma for each meaning and for the step: what it does when it answers a next state. -/

namespace Sys2Proof.Machine

/-! ### The rotor cell -/

theorem execRotorPin_eq_next {r : RotorId} {s t : State} :
    execRotorPin r s = .next t ↔
      ∃ pin, rotorPin s.cfg s.pos r = .next pin ∧ t = { s with out := .rotorOut r pin } := by
  simp only [execRotorPin, andThen_eq_next, Host.Outcome.next.injEq, eq_comm (b := t)]

theorem execRotorAdv_eq_next {r : RotorId} {s t : State} :
    execRotorAdv r s = .next t ↔
      ∃ g, advanceRotor s.cfg r s.pos = .next g ∧ t = { s with pos := g, out := .silent } := by
  simp only [execRotorAdv, andThen_eq_next, Host.Outcome.next.injEq, eq_comm (b := t)]

theorem execRotorHold_eq_next {r : RotorId} {s t : State} :
    execRotorHold r s = .next t ↔
      ∃ g, holdRotor s.cfg r s.pos = .next g ∧ t = { s with pos := g, out := .silent } := by
  simp only [execRotorHold, andThen_eq_next, Host.Outcome.next.injEq, eq_comm (b := t)]

theorem execRotorReset_eq_next {r : RotorId} {s t : State} :
    execRotorReset r s = .next t ↔
      ∃ g, resetRotor s.cfg r s.pos = .next g ∧ t = { s with pos := g, out := .silent } := by
  simp only [execRotorReset, andThen_eq_next, Host.Outcome.next.injEq, eq_comm (b := t)]

/-! ### The bank -/

theorem execBankComb_eq_next {b : BankId} {s t : State} :
    execBankComb b s = .next t ↔
      ∃ v, bankComb s.cfg s.pos b = .next v ∧ t = { s with out := .bankOut b s.cfg.k v } := by
  simp only [execBankComb, andThen_eq_next, Host.Outcome.next.injEq, eq_comm (b := t)]

theorem execBankAdv_eq_next {b : BankId} {s t : State} :
    execBankAdv b s = .next t ↔
      ∃ g, advanceBank s.cfg b s.pos = .next g ∧ t = { s with pos := g, out := .silent } := by
  simp only [execBankAdv, andThen_eq_next, Host.Outcome.next.injEq, eq_comm (b := t)]

theorem execBankHold_eq_next {b : BankId} {s t : State} :
    execBankHold b s = .next t ↔ t = { s with out := .silent } := by
  simp only [execBankHold, holdBank, setBankRegs_bankRegs, Host.Outcome.next.injEq, eq_comm (b := t)]

theorem execBankReset_eq_next {b : BankId} {s t : State} :
    execBankReset b s = .next t ↔ t = { s with pos := resetBank s.cfg b s.pos, out := .silent } := by
  simp only [execBankReset, Host.Outcome.next.injEq, eq_comm (b := t)]

/-! ### The engine -/

theorem execEngKey_eq_next {s t : State} :
    execEngKey s = .next t ↔
      ∃ key, deriveKey s.cfg s.pos = .next key ∧ t = { s with out := .engNet s.cfg.k key } := by
  simp only [execEngKey, andThen_eq_next, Host.Outcome.next.injEq, eq_comm (b := t)]

theorem execEngStep_eq_next {s t : State} :
    execEngStep s = .next t ↔
      ∃ g, stepProtocol s.cfg s.pos = .next g ∧ t = { s with pos := g, out := .silent } := by
  simp only [execEngStep, andThen_eq_next, Host.Outcome.next.injEq, eq_comm (b := t)]

theorem execEngProcess_eq_next {code : Nat} {s t : State} :
    execEngProcess code s = .next t ↔
      codeFits s.cfg code = true ∧
      ∃ key, deriveKey s.cfg s.pos = .next key ∧ ∃ g, stepProtocol s.cfg s.pos = .next g ∧
        t = { s with pos := g, out := .engOut s.cfg.rw (maskCode s.cfg code key) } := by
  unfold execEngProcess
  split
  · simp only [*, andThen_eq_next, Host.Outcome.next.injEq, eq_comm (b := t), true_and]
  · simp [*]

theorem execEngIdle_eq_next {s t : State} : execEngIdle s = .next t ↔ t = withFreeResult s := by
  simp only [execEngIdle, Host.Outcome.next.injEq, eq_comm (b := t)]

theorem execEngReset_eq_next {s t : State} :
    execEngReset s = .next t ↔ t = withFreeResult { s with pos := resetAll s.cfg s.pos } := by
  simp only [execEngReset, Host.Outcome.next.injEq, eq_comm (b := t)]

/-- A reset leaves the positions of the state after reset, whatever they were (R123, R155). -/
theorem resetAll_eq (c : Cfg) (g : Positions) : resetAll c g = (State.resetOf c).pos := by
  simp [resetAll, resetBank, setReg, setBankRegs, bankTables, resetReg, State.resetOf]

/-! ### The step -/

/-- A word that fits the engine's port is decoded by `decodeEng` (R62). -/
theorem decode_eng {c : Cfg} {w : Nat} (h : wordFits c w) :
    decode c ⟨.eng, w⟩ = .ok (decodeEng c.dataW (BitVec.ofNat _ w)) := by
  simp [decode, portExists, portWidth, decodeAt, h]

/-- A word that does not fit is rejected. -/
theorem decode_eng_eq_ok {c : Cfg} {w : Nat} {i : Instr} :
    decode c ⟨.eng, w⟩ = .ok i ↔ wordFits c w ∧ i = decodeEng c.dataW (BitVec.ofNat _ w) := by
  by_cases h : wordFits c w
  · rw [decode_eng h]; simp [h, eq_comm]
  · simp [decode, portExists, portWidth, h]

/-- The code field always fits the code input (R61). -/
theorem wordCode_lt (n : Nat) (w : BitVec (n + 2)) : wordCode n w < 2 ^ n := (w.extractLsb' 2 n).isLt

/-- What one step is: no call with no word left, else the decoded word's operation. -/
theorem step_eq_next {s t : State} :
    step s = .next t ↔
      (s.inputs = [] ∧ exec .engIdle s = .next t) ∨
      (∃ w rest i, s.inputs = w :: rest ∧ decode s.cfg ⟨.eng, w⟩ = .ok i ∧
        exec i { s with inputs := rest } = .next t) := by
  unfold step nextCommand
  cases hs : s.inputs with
  | nil => simp
  | cons w rest =>
    cases hd : decode s.cfg ⟨.eng, w⟩ with
    | error e => simp [hd]
    | ok i => simp [hd]

end Sys2Proof.Machine
end

