-- ==== Sys2Proof/Laws/PerInstr.lean ====
section
/-! SUPPORT. The family EncodedWordFits: the encoding of a well-formed operation stands at a port the configuration
has, in a word that port can carry. One lemma per constructor. -/

namespace Sys2Proof.Laws.EncodedWordFits

def Statement (i : Instr) : Prop :=
  ∀ (c : Cfg) (cmd : Command), i.wf c = true → encode i = some cmd →
    portExists c cmd.port = true ∧ cmd.word < 2 ^ portWidth c cmd.port

theorem rotorPin (r : RotorId) : Statement (.rotorPin r) := fun _ _ _ h => by cases h
theorem rotorAdv (r : RotorId) : Statement (.rotorAdv r) := fun _ _ hw h => by cases h; exact ⟨hw, by simp [portWidth]⟩
theorem rotorHold (r : RotorId) : Statement (.rotorHold r) := fun _ _ hw h => by
  cases h; exact ⟨hw, by simp [portWidth]⟩
theorem rotorReset (r : RotorId) : Statement (.rotorReset r) := fun _ _ hw h => by
  cases h; exact ⟨hw, by simp [portWidth]⟩
theorem bankComb (b : BankId) : Statement (.bankComb b) := fun _ _ _ h => by cases h
theorem bankAdv (b : BankId) : Statement (.bankAdv b) := fun _ _ _ h => by cases h; exact ⟨rfl, by simp [portWidth]⟩
theorem bankHold (b : BankId) : Statement (.bankHold b) := fun _ _ _ h => by cases h; exact ⟨rfl, by simp [portWidth]⟩
theorem bankReset (b : BankId) : Statement (.bankReset b) := fun _ _ _ h => by cases h; exact ⟨rfl, by simp [portWidth]⟩
theorem engKey : Statement .engKey := fun _ _ _ h => by cases h
theorem engStep : Statement .engStep := fun _ _ _ h => by cases h
theorem engProcess (code : Nat) : Statement (.engProcess code) := fun c _ hw h => by
  cases h
  have hc : code < 2 ^ c.dataW := of_decide_eq_true hw
  have e : 2 ^ (c.dataW + 2) = 2 ^ c.dataW * 4 := by rw [Nat.pow_add]
  exact ⟨rfl, by simp only [portWidth]; omega⟩
theorem engIdle : Statement .engIdle := fun _ _ _ h => by cases h; exact ⟨rfl, Nat.two_pow_pos _⟩
theorem engReset : Statement .engReset := fun c _ _ h => by
  cases h
  have e : 2 ^ (c.dataW + 2) = 2 ^ c.dataW * 4 := by rw [Nat.pow_add]
  have := Nat.two_pow_pos c.dataW
  exact ⟨rfl, by simp only [portWidth]; omega⟩

end Sys2Proof.Laws.EncodedWordFits
end

