-- ==== Sys2Proof/Laws/Run.lean ====
section
/-! SUPPORT. How a sequence of command words runs: one word, then the rest. -/

namespace Sys2Proof.Machine

@[simp] theorem runWords_nil (s : State) : runWords s [] = some ([], s) := by rw [runWords]

/-- A sequence runs exactly through its first step and then the rest. -/
theorem runWords_cons {s u : State} {w : Nat} {ws results : List Nat} :
    runWords s (w :: ws) = some (results, u) ↔
      ∃ t rest, step { s with inputs := [w] } = .next t ∧ runWords t ws = some (rest, u) ∧
        results = resultOfStep s.cfg w t ++ rest := by
  rw [runWords]
  cases step { s with inputs := [w] } with
  | next t =>
    simp only [Option.map_eq_some_iff, Prod.exists, Prod.mk.injEq, Host.Outcome.next.injEq]
    constructor
    · rintro ⟨a, b, h, rfl, rfl⟩; exact ⟨t, a, rfl, h, rfl⟩
    · rintro ⟨t', a, rfl, h, rfl⟩; exact ⟨a, u, h, rfl, rfl⟩
  | fault e => simp
  | refused e => simp

/-- Two sequences one after the other. -/
theorem runWords_append {s u : State} {ws1 ws2 results : List Nat} :
    runWords s (ws1 ++ ws2) = some (results, u) ↔
      ∃ t r1 r2, runWords s ws1 = some (r1, t) ∧ runWords t ws2 = some (r2, u) ∧ results = r1 ++ r2 := by
  induction ws1 generalizing s results with
  | nil => simp
  | cons w ws ih =>
    simp only [List.cons_append, runWords_cons, ih]
    constructor
    · rintro ⟨t, rest, hs, ⟨t', r1, r2, h1, h2, rfl⟩, rfl⟩
      exact ⟨t', _, r2, ⟨t, r1, hs, h1, rfl⟩, h2, by simp⟩
    · rintro ⟨t', r1, r2, ⟨t, rest, hs, h1, rfl⟩, h2, rfl⟩
      exact ⟨t, _, hs, ⟨t', rest, r2, h1, h2, rfl⟩, by simp⟩

/-- One word given alone: it fits the port, it decodes, and its operation is done with the queue empty. -/
theorem step_oneWord {s t : State} {w : Nat} :
    step { s with inputs := [w] } = .next t ↔
      wordFits s.cfg w ∧
      exec (decodeEng s.cfg.dataW (BitVec.ofNat _ w)) { s with inputs := [] } = .next t := by
  rw [step_eq_next]
  constructor
  · rintro (⟨h, -⟩ | ⟨w', rest, i, h, hd, he⟩)
    · simp at h
    · simp only [List.cons.injEq] at h
      obtain ⟨rfl, rfl⟩ := h
      obtain ⟨hf, rfl⟩ := decode_eng_eq_ok.1 hd
      exact ⟨hf, he⟩
  · rintro ⟨hf, he⟩
    exact .inr ⟨w, [], _, rfl, decode_eng hf, he⟩

end Sys2Proof.Machine
end

