-- ==== Sys2Proof/Tests/Slice0.lean ====
section
/-! SUPPORT. The model's own tests. Every expected value is from 95_test_vectors.md (its number stands in the comment)
or from the example of the rule named; the witnesses at the end meet the hypotheses of the statements. -/

namespace Sys2Proof.Tests

open Sys2Proof Sys2Proof.Machine

/-! ### Small states -/

/-- A pin table written as the spec writes it, `[1,0,1]`. -/
def pins (l : List Nat) : PinTable := l.map (· == 1)

/-- T1 with a given `DATA_W` (95_test_vectors.md section 2). -/
def rawT1 (dataW : Nat) : RawCfg :=
  ⟨dataW, pins [1, 0, 1], pins [0, 1], [pins [1, 0], pins [0, 1, 1]], [pins [1, 1, 0], pins [0, 1]]⟩

def t1 : Cfg := ⟨rawT1 2, by decide⟩

/-- T2 with `DATA_W = 3` (T2n); `Config.reference` is T2w. -/
def t2n : Cfg := ⟨{ Config.t2w with dataW := 3 }, by decide⟩

/-- The source's fixture FB. -/
def fb : Cfg :=
  ⟨⟨5, pins [1], pins [1], [pins [0], pins [1], pins [1], pins [0], pins [0]],
    [pins [0], pins [0], pins [1], pins [1], pins [0]]⟩, by decide⟩

/-- Positions written as the spec writes them: `A B Psi Chi`. -/
def pos (a b : Nat) (psi chi : List Nat) : Positions := ⟨some a, some b, psi.map some, chi.map some⟩

/-- A state of configuration `c` in positions `g`, nothing queued. -/
def at' (c : Cfg) (g : Positions) : State := { State.resetOf c with pos := g }

def nextPositions (x : Answer State) : Option Positions :=
  match x with
  | .next t    => some t.pos
  | .fault _   => none
  | .refused _ => none

def nextOutput (x : Answer State) : Option Output :=
  match x with
  | .next t    => some t.out
  | .fault _   => none
  | .refused _ => none

def refusal (x : Answer State) : Option Refusal :=
  match x with
  | .next _    => none
  | .fault _   => none
  | .refused e => some e

def isNext (x : Answer State) : Bool :=
  match x with
  | .next _    => true
  | .fault _   => false
  | .refused _ => false

def isFault (x : Answer State) : Bool :=
  match x with
  | .next _    => false
  | .fault _   => true
  | .refused _ => false

/-! ### WellFormed refuses ill-formed terms -/

theorem test_wf_refuses_psi_member_K : (Instr.rotorAdv (.psi 2)).wf t1 = false := by decide
theorem test_wf_accepts_psi_member_K_minus_one : (Instr.rotorAdv (.psi 1)).wf t1 = true := by decide
theorem test_wf_refuses_chi_member_K : (Instr.rotorPin (.chi 2)).wf t1 = false := by decide
theorem test_wf_refuses_wide_code : (Instr.engProcess 4).wf t1 = false := by decide
theorem test_wf_accepts_widest_code : (Instr.engProcess 3).wf t1 = true := by decide
theorem test_ill_formed_rotor_is_refused :
    refusal (exec (.rotorAdv (.psi 2)) (State.resetOf t1)) = some (.noSuchRotor (.psi 2)) := by decide
theorem test_wide_code_is_refused : refusal (exec (.engProcess 4) (State.resetOf t1)) = some .codeTooWide := by decide

/-! ### Decode: words written out from R61 to R64 -/

/-- V42. -/
theorem test_decode_process : decode t1 ⟨.eng, 0b1101⟩ = .ok (.engProcess 0b11) := by rfl
/-- V43. -/
theorem test_decode_reset : decode t1 ⟨.eng, 0b0010⟩ = .ok .engReset := by rfl
/-- V44: `rst` over `process`, the code ignored. -/
theorem test_decode_reset_first : decode t1 ⟨.eng, 0b1011⟩ = .ok .engReset := by rfl
/-- V45: the code ignored. -/
theorem test_decode_idle : decode t1 ⟨.eng, 0b1100⟩ = .ok .engIdle := by rfl
/-- V46, `DATA_W = 5`. -/
theorem test_decode_process_5 : decode fb ⟨.eng, 0b1010101⟩ = .ok (.engProcess 0b10101) := by rfl
/-- V47. -/
theorem test_decode_rotor_hold : decode t1 ⟨.rotor .controlB, 0b00⟩ = .ok (.rotorHold .controlB) := by rfl
/-- V47. -/
theorem test_decode_rotor_adv : decode t1 ⟨.rotor (.chi 1), 0b01⟩ = .ok (.rotorAdv (.chi 1)) := by rfl
/-- V47. -/
theorem test_decode_rotor_reset :
    decode t1 ⟨.rotor .controlA, 0b10⟩ = .ok (.rotorReset .controlA) ∧
    decode t1 ⟨.rotor .controlA, 0b11⟩ = .ok (.rotorReset .controlA) := ⟨rfl, rfl⟩
/-- V48. -/
theorem test_decode_bank_hold : decode t1 ⟨.bank .psi, 0b00⟩ = .ok (.bankHold .psi) := by rfl
/-- V48. -/
theorem test_decode_bank_adv : decode t1 ⟨.bank .chi, 0b01⟩ = .ok (.bankAdv .chi) := by rfl
/-- V48. -/
theorem test_decode_bank_reset :
    decode t1 ⟨.bank .psi, 0b10⟩ = .ok (.bankReset .psi) ∧ decode t1 ⟨.bank .psi, 0b11⟩ = .ok (.bankReset .psi) :=
  ⟨rfl, rfl⟩
/-- R65: four operations are selected by no bits. -/
theorem test_no_word_selects_nets :
    encode (.rotorPin .controlA) = none ∧ encode (.bankComb .psi) = none ∧ encode .engKey = none ∧
    encode .engStep = none := by decide
/-- A word of five bits on a port of four. -/
theorem test_decode_rejects_wide_word : decode t1 ⟨.eng, 0b10000⟩ = .error (.wordTooWide .eng 4) := by rfl
/-- P4: `PROCESS 0b1101101` with `DATA_W = 7`, at the port of `State.reset`. -/
theorem test_decodeTableWord : decodeTableWord 16 0b110110101 = some (.engProcess 0b1101101) := by rfl

/-! ### The rotor cell (section 3.1) -/

/-- R80's example: `Rotor([1,0,1])` at 1. -/
theorem test_rotor_pin :
    nextOutput (exec (.rotorPin .controlA) (at' t1 (pos 1 0 [0, 0] [0, 0]))) = some (.rotorOut .controlA false) := by
  decide
/-- V2: wrap at `N - 1`. -/
theorem test_rotor_adv_wraps :
    nextPositions (exec (.rotorAdv .controlA) (at' t1 (pos 2 1 [0, 0] [0, 0]))) = some (pos 0 1 [0, 0] [0, 0]) := by
  decide
/-- V3: `N = 1`. -/
theorem test_rotor_adv_single_pin :
    nextPositions (exec (.rotorAdv .controlA) (State.resetOf fb)) = some (State.resetOf fb).pos := by decide
/-- V5. -/
theorem test_rotor_hold :
    nextPositions (exec (.rotorHold .controlB) (at' t1 (pos 0 1 [0, 0] [0, 0]))) = some (pos 0 1 [0, 0] [0, 0]) := by
  decide
/-- V6, on `Chi[1] = [0,1]`. -/
theorem test_rotor_reset :
    nextPositions (exec (.rotorReset (.chi 1)) (at' t1 (pos 2 1 [1, 2] [2, 1]))) = some (pos 2 1 [1, 2] [2, 0]) := by
  decide
/-- U2: a position equal to the pin count. -/
theorem test_rotor_adv_out_of_range :
    isFault (exec (.rotorAdv .controlA) (at' t1 (pos 3 0 [0, 0] [0, 0]))) = true := by decide

/-! ### The rotor bank (section 3.2) -/

/-- V17 and V18, the banks of FB. -/
theorem test_bank_comb_psi :
    nextOutput (exec (.bankComb .psi) (State.resetOf fb)) = some (.bankOut .psi 5 0b01100#5) := by decide
/-- V19: most significant first; the other order would give `0b10110`. -/
theorem test_bank_comb_chi :
    nextOutput (exec (.bankComb .chi) State.reset) = some (.bankOut .chi 5 0b01101#5) := by decide
/-- V13: the second member wraps. -/
theorem test_bank_adv :
    nextPositions (exec (.bankAdv .psi) (at' t1 (pos 0 0 [0, 2] [0, 0]))) = some (pos 0 0 [1, 0] [0, 0]) := by decide
/-- V14. -/
theorem test_bank_hold :
    nextPositions (exec (.bankHold .psi) (at' t1 (pos 0 0 [1, 0] [0, 0]))) = some (pos 0 0 [1, 0] [0, 0]) := by decide
/-- V15. -/
theorem test_bank_reset :
    nextPositions (exec (.bankReset .psi) (at' t1 (pos 1 1 [1, 2] [2, 1]))) = some (pos 1 1 [0, 0] [2, 1]) := by decide

/-! ### The engine (sections 3.3 to 3.5) -/

/-- V22. -/
theorem test_key_fb : nextOutput (exec .engKey (State.resetOf fb)) = some (.engNet 5 0b01010#5) := by decide
/-- V23. -/
theorem test_key_t2 : nextOutput (exec .engKey State.reset) = some (.engNet 5 0b11000#5) := by decide
/-- V27: `mA = 0`, `mB = 1`. A Psi decision on `controlB`'s pin after a move would differ at V26. -/
theorem test_step_01 :
    nextPositions (exec .engStep (at' t1 (pos 1 1 [0, 0] [1, 1]))) = some (pos 2 1 [1, 1] [2, 0]) := by decide
/-- V29: `mA = 0`, `mB = 0`. -/
theorem test_step_00 :
    nextPositions (exec .engStep (at' Config.reference (pos 2 1 [0, 1, 2, 3, 1] [4, 0, 1, 1, 2]))) =
      some (pos 3 1 [0, 1, 2, 3, 1] [0, 1, 2, 0, 3]) := by decide
/-- V26 and V30, P1 step 1: `mA = 1`, `mB = 0`; the Psi bank holds although `controlB` moves to a 1. -/
theorem test_process_t1 :
    nextPositions (exec (.engProcess 0b11) (State.resetOf t1)) = some (pos 1 1 [0, 0] [1, 1]) ∧
    nextOutput (exec (.engProcess 0b11) (State.resetOf t1)) = some (.engOut 2 0b11#2) := by decide
/-- V40: `DATA_W = 3`, `K = 5`: the top two bits of the result are the key's. -/
theorem test_process_narrow_code :
    nextOutput (exec (.engProcess 0b101) (State.resetOf t2n)) = some (.engOut 5 0b11101#5) := by decide
/-- V39 as one step from `State.reset`: `DATA_W = 7`, `K = 5`: the top two bits are the code's. -/
theorem test_step_process_wide_code :
    nextOutput (step (State.reset.withFetchWord 16 0b110110101)) = some (.engOut 7 0b1110101#7) := by decide
/-- P3 step 4: an idle with its code field set. -/
theorem test_step_idle :
    nextPositions (step { at' t1 (pos 2 1 [1, 2] [2, 0]) with inputs := [0b1100] }) = some (pos 2 1 [1, 2] [2, 0]) := by
  decide
/-- R123's example, with `process` set too. -/
theorem test_step_reset :
    nextPositions (step { at' t1 (pos 2 1 [1, 2] [2, 0]) with inputs := [0b1011] }) = some (pos 0 0 [0, 0] [0, 0]) := by
  decide
/-- V28 on the inner ports (R71): `mA = 1`, `mB = 1`; A, B and `Psi[0]` wrap. -/
theorem test_inner_ports :
    engineEdge t1 false true (pos 2 1 [1, 1] [2, 0]) = .next (pos 0 0 [0, 2] [0, 1]) := by rfl

/-! ### Before the first reset (section 3.8) -/

/-- V55. -/
theorem test_process_before_reset : refusal (exec (.engProcess 0) (State.powerOn t1)) = some .beforeReset := by decide
/-- V56, its first command: an idle leaves the state without a value. -/
theorem test_idle_before_reset :
    nextPositions (exec .engIdle (State.powerOn t1)) = some (State.powerOn t1).pos := by decide
/-- V56, its second command. -/
theorem test_reset_from_power_on :
    nextPositions (exec .engReset (State.powerOn t1)) = some (pos 0 0 [0, 0] [0, 0]) := by decide

/-! ### Configurations (section 3.7) -/

/-- V49. -/
theorem test_empty_controlA :
    refusal (elaborate { rawT1 2 with controlA := [] }) = some (.invalidConfiguration (.emptyRotor .controlA)) := by
  decide
/-- V50. -/
theorem test_empty_psi_member :
    refusal (elaborate { rawT1 2 with bankPsi := [pins [1, 0], []] }) =
      some (.invalidConfiguration (.emptyRotor (.psi 1))) := by decide
/-- V51. -/
theorem test_empty_banks :
    refusal (elaborate { rawT1 2 with bankPsi := [], bankChi := [] }) =
      some (.invalidConfiguration (.emptyBank .psi)) := by decide
/-- V52. -/
theorem test_unequal_banks :
    refusal (elaborate { rawT1 2 with bankChi := [pins [1, 1, 0], pins [0, 1], pins [1]] }) =
      some (.invalidConfiguration .widthMismatch) := by decide
/-- V53: order 1 before order 3. -/
theorem test_first_cause :
    refusal (elaborate { rawT1 2 with controlA := [], bankChi := [pins [1, 1, 0], pins [0, 1], pins [1]] }) =
      some (.invalidConfiguration (.emptyRotor .controlA)) := by decide
/-- V54, and its accepted neighbour. -/
theorem test_zero_dataW :
    refusal (elaborate (rawT1 0)) = some (.invalidConfiguration .badWidth) ∧ isNext (elaborate (rawT1 1)) = true := by
  decide
/-- The remaining rows of R136: an empty Chi bank, `controlB`, a Chi member. -/
theorem test_other_causes :
    refusal (elaborate { rawT1 2 with bankChi := [] }) = some (.invalidConfiguration (.emptyBank .chi)) ∧
    refusal (elaborate { rawT1 2 with controlB := [] }) =
      some (.invalidConfiguration (.emptyRotor .controlB)) ∧
    refusal (elaborate { rawT1 2 with bankChi := [pins [1], []] }) =
      some (.invalidConfiguration (.emptyRotor (.chi 1))) := by decide

/-! ### Witnesses: each meets the hypotheses of the statement named, at the boundary of its clauses -/

/-- A state of T1 in mid-run (P1 step 2), every group at a position of its own. -/
def mid : State := at' t1 (pos 2 1 [1, 2] [2, 0])

theorem witness_RotorPinDrivesThePinAtThePosition :
    table? t1 .controlA = some (pins [1, 0, 1]) ∧ reg? mid.pos .controlA = some (some 2) ∧
    (pins [1, 0, 1])[2]? = some true ∧
    reg? (pos 3 0 [0, 0] [0, 0]) .controlA = some (some 3) ∧ (pins [1, 0, 1]).length ≤ 3 := by decide
theorem witness_RotorAdvMovesOnByOneModuloTheLength :
    table? t1 (.psi 1) = some (pins [0, 1, 1]) ∧ reg? mid.pos (.psi 1) = some (some 2) ∧
    2 < (pins [0, 1, 1]).length := by decide
theorem witness_RotorHoldChangesNoRegister :
    table? t1 .controlB = some (pins [0, 1]) ∧ reg? mid.pos .controlB = some (some 1) ∧
    reg? (State.powerOn t1).pos .controlB = some none := by decide
theorem witness_RotorResetPutsThePositionToZero :
    table? t1 (.chi 1) = some (pins [0, 1]) ∧ reg? (State.powerOn t1).pos (.chi 1) = some none := by decide
theorem witness_RotorPositionIsPeriodicInItsLength :
    table? t1 .controlA = some (pins [1, 0, 1]) ∧ reg? mid.pos .controlA = some (some 2) ∧
    2 < (pins [1, 0, 1]).length ∧ [true, false, true, true].count true = (pins [1, 0, 1]).length := by decide
theorem witness_BankCombPacksPinsMostSignificantFirst :
    membersAll inRange (bankTables t1 .psi) (bankRegs mid.pos .psi) = true := by decide
theorem witness_BankAdvMovesEveryMember :
    membersAll inRange (bankTables t1 .chi) (bankRegs mid.pos .chi) = true := by decide
theorem witness_BankAdvEqualsMemberLoopInIndexOrder :
    membersAll inRange (bankTables t1 .psi) (bankRegs mid.pos .psi) = true ∧ 0 < t1.k := by decide
/-- The banks are reset, the control rotors have no value. -/
theorem witness_EngKeyIsPsiXorChi :
    membersAll inRange t1.raw.bankPsi ((at' t1 ⟨none, none, [some 0, some 2], [some 1, some 1]⟩).pos.psi) = true ∧
    membersAll inRange t1.raw.bankChi ((at' t1 ⟨none, none, [some 0, some 2], [some 1, some 1]⟩).pos.chi) = true := by
  decide
theorem witness_EngStepRunsTheFourPartsInOrder : Ready mid := by decide
theorem witness_EngStepEqualsSingleEdgeUpdate : Ready (at' t1 (pos 1 1 [0, 0] [1, 1])) := by decide
theorem witness_EngStepTruthTable :
    Ready mid ∧ mA t1 mid.pos = .next true ∧ mB t1 mid.pos = .next true ∧
    mA t1 (pos 1 0 [0, 0] [0, 0]) = .next false ∧ mB t1 (pos 1 0 [0, 0] [0, 0]) = .next false :=
  ⟨by decide, rfl, rfl, rfl, rfl⟩
theorem witness_EngineEqualsItsInnerPortsOnOneEdge :
    Ready mid ∧ decodeEng t1.dataW 0b1101#4 = .engProcess 3 ∧ decodeEng t1.dataW 0b1111#4 = .engReset ∧
    Legal (State.powerOn t1) ∧ wordRst 0b0010#4 = true ∧ wordGo 0b1100#4 = false := by decide
theorem witness_PositionsFollowTheClosedForms :
    ∀ w ∈ [0b1101, 0b1100, 0b0001], wordFits t1 w ∧ w % 4 < 2 := by decide
theorem witness_RepeatedProcessIsEventuallyPeriodic : Ready State.reset := by decide
theorem witness_EngProcessMasksWithTheKeyBeforeAndThenSteps :
    (Ready mid ∧ 3 < 2 ^ t1.dataW) ∧ AtPowerOn (State.powerOn t1) := by decide
/-- One configuration with `DATA_W < K` and one with `K < DATA_W`. -/
theorem witness_ResultBitsForEveryPairOfWidths :
    (Ready (State.resetOf t2n) ∧ 7 < 2 ^ t2n.dataW ∧ t2n.dataW < t2n.k) ∧
    (Ready State.reset ∧ 127 < 2 ^ Config.reference.dataW ∧ Config.reference.k < Config.reference.dataW) := by decide
theorem witness_EngIdleWritesNoPosition : wordFits t1 0b1100 ∧ 0b1100 % 4 = 0 := by decide
theorem witness_EngResetPutsEveryPositionToZero : wordFits t1 0b1111 ∧ 2 ≤ 0b1111 % 4 := by decide
theorem witness_BeforeTheFirstResetOnlyResetGivesAState :
    AtPowerOn (State.powerOn t1) ∧ 0 < 2 ^ (State.powerOn t1).cfg.dataW := by decide
theorem witness_ProcessZeroReturnsTheKey : Ready (State.resetOf t2n) := by decide
/-- `DATA_W = K`, the second engine in its power-on state; and `DATA_W < K`. -/
theorem witness_EnginesFedEachOthersResultsRecoverTheMessage :
    (mid.cfg = (State.powerOn t1).cfg ∧ ∀ code ∈ [3, 0, 2, 1], code < 2 ^ mid.cfg.dataW) ∧ t1.k ≤ t1.dataW ∧
    (∀ code ∈ [7, 0], code < 2 ^ t2n.dataW) ∧ ¬ t2n.k ≤ t2n.dataW := by decide
theorem witness_SameConfigurationAndPositionsGiveTheSameResults :
    mid.cfg = { mid with draws := 5, out := .rotorOut .controlA true }.cfg ∧
    (runWords mid [0b1101, 0b1100, 0b0001]).isSome = true := by decide
theorem witness_ResetRestartsTheKeystream : (runWords mid (resetWord :: [0b1101])).isSome = true := by decide
theorem witness_CodesDoNotInfluenceTheStepping :
    List.Forall₂ (fun w1 w2 => w1 % 4 = w2 % 4) [0b1101, 0b1000] [0b0001, 0b0100] ∧
    (runWords mid [0b1101, 0b1000]).isSome = true ∧ (runWords mid [0b0001, 0b0100]).isSome = true := by decide
theorem witness_PositionsStayValidIndices :
    (Ready mid ∧ isNext (step { mid with inputs := [0b1101] }) = true ∧ isNext (exec (.bankAdv .psi) mid) = true) ∧
    (Legal (State.powerOn t1) ∧ isNext (exec (.rotorReset .controlA) (State.powerOn t1)) = true) ∧
    (reg? (pos 3 0 [0, 0] [0, 0]) .controlA = some (some 3) ∧ (pins [1, 0, 1]).length ≤ 3) := by decide
/-- A position one above the last index, of a rotor of each kind; for the Psi member `mB` is 1. -/
theorem witness_OutOfRangePositionFaultsWhereverItIsRead :
    (Valued (at' t1 (pos 3 0 [0, 0] [0, 0])) ∧ table? t1 .controlA = some (pins [1, 0, 1]) ∧
      reg? (pos 3 0 [0, 0] [0, 0]) .controlA = some (some 3) ∧ (pins [1, 0, 1]).length ≤ 3) ∧
    (Valued (at' t1 (pos 0 2 [0, 0] [0, 0])) ∧ table? t1 .controlB = some (pins [0, 1]) ∧
      reg? (pos 0 2 [0, 0] [0, 0]) .controlB = some (some 2) ∧ (pins [0, 1]).length ≤ 2) ∧
    (Valued (at' t1 (pos 0 1 [0, 3] [0, 0])) ∧ table? t1 (.psi 1) = some (pins [0, 1, 1]) ∧
      reg? (pos 0 1 [0, 3] [0, 0]) (.psi 1) = some (some 3) ∧ (pins [0, 1, 1]).length ≤ 3 ∧
      (match mB t1 (pos 0 1 [0, 3] [0, 0]) with | .next b => b | .fault _ => false | .refused _ => false) = true) ∧
    (Valued (at' t1 (pos 0 0 [0, 0] [0, 2])) ∧ table? t1 (.chi 1) = some (pins [0, 1]) ∧
      reg? (pos 0 0 [0, 0] [0, 2]) (.chi 1) = some (some 2) ∧ (pins [0, 1]).length ≤ 2) ∧
    1 < 2 ^ t1.dataW := by decide
theorem witness_ReadyEngineNeverStops :
    Ready { mid with inputs := [0b1111, 0b0000] } ∧ WordsFit { mid with inputs := [0b1111, 0b0000] } ∧
    (Instr.engProcess 3).wf mid.cfg = true := by decide
theorem witness_EveryWordSequenceRunsToItsEnd : Ready mid ∧ ∀ w ∈ [0b1111, 0b0000, 0b1101], wordFits mid.cfg w := by
  decide
theorem witness_FrameOfEveryOperation :
    isNext (exec (.rotorPin .controlA) mid) = true ∧ isNext (exec (.rotorAdv (.chi 1)) mid) = true ∧
    isNext (exec (.rotorHold .controlB) mid) = true ∧ isNext (exec (.rotorReset (.psi 1)) mid) = true ∧
    isNext (exec (.bankComb .psi) mid) = true ∧ isNext (exec (.bankAdv .chi) mid) = true ∧
    isNext (exec (.bankHold .psi) mid) = true ∧ isNext (exec (.bankReset .chi) mid) = true ∧
    isNext (exec .engKey mid) = true ∧ isNext (exec .engStep mid) = true ∧
    isNext (exec (.engProcess 3) mid) = true ∧ isNext (exec .engIdle mid) = true ∧
    isNext (exec .engReset mid) = true := by decide
theorem witness_EveryStepIsIdleResetOrProcess :
    isNext (step { mid with inputs := [0b1101] }) = true ∧ isNext (step { mid with inputs := [0b0010] }) = true ∧
    isNext (step { mid with inputs := [0b1100] }) = true ∧ isNext (step mid) = true := by decide
theorem witness_EngineWordDecodesWithResetFirst :
    0b1111 < 2 ^ (t1.dataW + 2) ∧ Nat.testBit 0b1111 1 = true ∧ Nat.testBit 0b1101 1 = false ∧
    Nat.testBit 0b1101 0 = true ∧ Nat.testBit 0b1100 1 = false ∧ Nat.testBit 0b1100 0 = false := by decide
theorem witness_EveryPortWordIsSelectedByExactlyOneRow :
    (portExists t1 (.rotor (.psi 1)) = true ∧ 3 < 2 ^ portWidth t1 (.rotor (.psi 1))) ∧
    (portExists t1 .eng = true ∧ 0b1110 < 2 ^ portWidth t1 .eng ∧ 0b0011 < 2 ^ portWidth t1 .eng ∧
      2 ≤ 0b1110 % 4 ∧ 2 ≤ 0b0011 % 4) := by decide
theorem witness_DecodeOfEncodeIsTheOperation :
    ((Instr.engProcess 3).wf t1 = true ∧ encode (.engProcess 3) = some ⟨.eng, 0b1101⟩) ∧
    encode .engKey = none := by decide
theorem witness_StepRunsTheDecodedInstruction :
    { mid with inputs := [0b1101, 0b0010] }.inputs = 0b1101 :: [0b0010] ∧ mid.inputs = [] ∧
    ¬ wordFits t1 0b10000 ∧ decode t1 ⟨.eng, 0b1101 % 2 ^ 8⟩ = .ok (.engProcess 3) :=
  ⟨rfl, rfl, by decide, rfl⟩
theorem witness_ElaborationAloneRaisesInvalidConfiguration : (rawT1 2).WF ∧ ¬ (rawT1 0).WF := by decide
theorem witness_PositionsFitTheirRegisterWidth :
    Ready mid ∧ table? t1 .controlA = some (pins [1, 0, 1]) ∧ reg? mid.pos .controlA = some (some 2) ∧
    positionWidth (pins [1, 0, 1]) = 2 ∧
    (Ready (State.resetOf fb) ∧ table? fb .controlA = some (pins [1]) ∧ (pins [1]).length = 1) := by decide

end Sys2Proof.Tests
end

section
/-! PROOFS. What one step is, by the host's queue and the decoder's answer (R12, R61, R62): one equation per branch of
`nextCommand`, the step being the operation or the refusal it hands over. -/

namespace Sys2Proof.Machine

/-- No call in this step is `ENG.IDLE` (log entry 4). -/
theorem step_of_inputs_nil {s : State} (hs : s.inputs = []) : step s = exec .engIdle s := by
  simp [step, nextCommand, hs]

/-- A decoded word is taken off the queue and its operation done (R12, R61, R62). -/
theorem step_of_decode_eq_ok {s : State} {w : Nat} {rest : List Nat} {i : Instr} (hs : s.inputs = w :: rest)
    (hd : decode s.cfg ⟨.eng, w⟩ = .ok i) : step s = exec i { s with inputs := rest } := by
  simp [step, nextCommand, hs, hd]

/-- A word the decoder rejects is refused, whatever the reason it names (log entry 10). -/
theorem step_of_decode_eq_error {s : State} {w : Nat} {rest : List Nat} {e : DecodeReject} (hs : s.inputs = w :: rest)
    (hd : decode s.cfg ⟨.eng, w⟩ = .error e) : step s = .refused .wordTooWide := by
  simp [step, nextCommand, hs, hd]

/-- The counterpart of `decode_eng`: the engine's port exists, so only the width can be at fault. -/
theorem decode_eng_eq_error {c : Cfg} {w : Nat} (h : ¬ wordFits c w) :
    decode c ⟨.eng, w⟩ = .error (.wordTooWide .eng (c.dataW + 2)) := by
  simp [decode, portExists, portWidth, h]

/-- The word put at the head of the queue is the one the next step takes, leaving the state it was put into. -/
theorem step_withFetchWord {s : State} {nbits w : Nat} {i : Instr}
    (hd : decode s.cfg ⟨.eng, w % 2 ^ nbits⟩ = .ok i) : step (s.withFetchWord nbits w) = exec i s :=
  step_of_decode_eq_ok (withFetchWord_inputs s nbits w) hd

/-- Settles O39: each clause is the step's equation in one branch of `nextCommand`. -/
theorem stepRunsTheDecodedInstruction : Obligations.StepRunsTheDecodedInstruction := by
  refine ⟨?decoded, ?noWord, ?tooWide, ?fetchWord⟩
  case decoded => exact fun _ _ _ _ hs hd => step_of_decode_eq_ok hs hd
  case noWord => exact fun _ hs => step_of_inputs_nil hs
  case tooWide => exact fun _ _ _ hs hw => step_of_decode_eq_error hs (decode_eng_eq_error hw)
  case fetchWord => exact fun _ _ _ _ hd => step_withFetchWord hd

end Sys2Proof.Machine
end

section
/-! PROOFS. Checks of the position registers and what keeps them (R22): a check that every valid index passes is kept
by each write the operations make, so by every operation. Validity itself and "no value yet, or valid" are two such
checks. -/

namespace Sys2Proof.Machine

/-! ### A check kept by a write -/

theorem membersAll_set {ok : PinTable → Option Nat → Bool} {ts : List PinTable} {qs : List (Option Nat)} {i : Nat}
    {t : PinTable} {v : Option Nat} (h : membersAll ok ts qs = true) (ht : ts[i]? = some t) (hv : ok t v = true) :
    membersAll ok ts (qs.set i v) = true := by
  obtain ⟨hl, hok⟩ := membersAll_iff.1 h
  refine membersAll_iff.2 ⟨by rw [List.length_set, hl], fun j t' q ht' hq => ?_⟩
  by_cases hij : i = j
  · subst hij
    obtain rfl : t = t' := Option.some.inj (ht.symm.trans ht')
    have hi : i < qs.length := hl ▸ (List.getElem?_eq_some_iff.1 ht).1
    obtain rfl : v = q := Option.some.inj ((List.getElem?_set_self hi).symm.trans hq)
    exact hv
  · exact hok j t' q ht' (List.getElem?_set_ne hij ▸ hq)

theorem rotorsAll_setReg {ok : PinTable → Option Nat → Bool} {c : Cfg} {g : Positions} {r : RotorId} {t : PinTable}
    {v : Option Nat} (h : rotorsAll ok c g = true) (ht : table? c r = some t) (hv : ok t v = true) :
    rotorsAll ok c (setReg g r v) = true := by
  obtain ⟨hA, hB, hP, hC⟩ := rotorsAll_iff.1 h
  cases r with
  | controlA => cases ht; exact rotorsAll_iff.2 ⟨hv, hB, hP, hC⟩
  | controlB => cases ht; exact rotorsAll_iff.2 ⟨hA, hv, hP, hC⟩
  | psi i => exact rotorsAll_iff.2 ⟨hA, hB, membersAll_set hP ht hv, hC⟩
  | chi i => exact rotorsAll_iff.2 ⟨hA, hB, hP, membersAll_set hC ht hv⟩

theorem rotorsAll_setBankRegs {ok : PinTable → Option Nat → Bool} {c : Cfg} {g : Positions} {b : BankId}
    {qs : List (Option Nat)} (h : rotorsAll ok c g = true) (hq : membersAll ok (bankTables c b) qs = true) :
    rotorsAll ok c (setBankRegs g b qs) = true := by
  obtain ⟨hA, hB, hP, hC⟩ := rotorsAll_iff.1 h
  cases b with
  | psi => exact rotorsAll_iff.2 ⟨hA, hB, hq, hC⟩
  | chi => exact rotorsAll_iff.2 ⟨hA, hB, hP, hq⟩

/-- A weaker check of each member. -/
theorem membersAll_mono {ok ok' : PinTable → Option Nat → Bool} (hok : ∀ t q, ok t q = true → ok' t q = true)
    {ts : List PinTable} {qs : List (Option Nat)} (h : membersAll ok ts qs = true) : membersAll ok' ts qs = true := by
  obtain ⟨hl, hall⟩ := membersAll_iff.1 h
  exact membersAll_iff.2 ⟨hl, fun i t q ht hq => hok t q (hall i t q ht hq)⟩

/-- A weaker check of each register. -/
theorem rotorsAll_mono {ok ok' : PinTable → Option Nat → Bool} (hok : ∀ t q, ok t q = true → ok' t q = true)
    {c : Cfg} {g : Positions} (h : rotorsAll ok c g = true) : rotorsAll ok' c g = true := by
  obtain ⟨hA, hB, hP, hC⟩ := rotorsAll_iff.1 h
  exact rotorsAll_iff.2 ⟨hok _ _ hA, hok _ _ hB, membersAll_mono hok hP, membersAll_mono hok hC⟩

/-! ### Reset (R31) -/

/-- Position 0 is a valid index of every rotor, as every rotor has a pin (R10). -/
theorem inRange_zero {t : PinTable} (h : 0 < t.length) : inRange t (some 0) = true := inRange_iff.2 ⟨0, rfl, h⟩

theorem membersAll_inRange_replicate_zero {ts : List PinTable} (h : ∀ t ∈ ts, 1 ≤ t.length) :
    membersAll inRange ts (List.replicate ts.length (some 0)) = true := by
  simpa only [List.map_const', resetReg] using membersAll_inRange_reset h

/-- The invariant of R22 holds after reset. -/
theorem ready_resetOf (c : Cfg) : Ready (State.resetOf c) := by
  obtain ⟨-, -, -, hA, hB, hP, hC⟩ := c.wf
  exact rotorsAll_iff.2 ⟨inRange_zero hA, inRange_zero hB, membersAll_inRange_replicate_zero hP,
    membersAll_inRange_replicate_zero hC⟩

/-- Settles O2: position 0 is a valid index of every rotor of a well-formed configuration. -/
theorem resetStateIsReady : Obligations.ResetStateIsReady :=
  ⟨ready_resetOf, ready_resetOf Config.reference⟩

/-! ### A check that every valid index passes is kept by every operation -/

section Keeps

variable {ok : PinTable → Option Nat → Bool} (hok : ∀ t q, inRange t q = true → ok t q = true)
include hok

theorem advanceRotor_keeps_rotorsAll {c : Cfg} {r : RotorId} {g g' : Positions} (h : rotorsAll ok c g = true)
    (hg : advanceRotor c r g = .next g') : rotorsAll ok c g' = true := by
  obtain ⟨t, p, ht, -, -, rfl⟩ := advanceRotor_eq_next.1 hg
  exact rotorsAll_setReg h ht (hok _ _ (inRange_iff.2 ⟨_, rfl, nextPos_lt (table?_length_pos ht) p⟩))

theorem resetRotor_keeps_rotorsAll {c : Cfg} {r : RotorId} {g g' : Positions} (h : rotorsAll ok c g = true)
    (hg : resetRotor c r g = .next g') : rotorsAll ok c g' = true := by
  obtain ⟨⟨t, -, ht, -⟩, rfl⟩ := resetRotor_eq_next.1 hg
  exact rotorsAll_setReg h ht (hok _ _ (inRange_zero (table?_length_pos ht)))

theorem advanceBank_keeps_rotorsAll {c : Cfg} {b : BankId} {g g' : Positions} (h : rotorsAll ok c g = true)
    (hg : advanceBank c b g = .next g') : rotorsAll ok c g' = true := by
  obtain ⟨hin, rfl⟩ := advanceBank_eq_next.1 hg
  exact rotorsAll_setBankRegs h (membersAll_mono hok (membersAll_inRange_bump hin))

theorem resetBank_keeps_rotorsAll {c : Cfg} (b : BankId) {g : Positions} (h : rotorsAll ok c g = true) :
    rotorsAll ok c (resetBank c b g) = true :=
  rotorsAll_setBankRegs h (membersAll_mono hok (membersAll_inRange_reset (bankTables_length_pos c b)))

/-- Each of the four parts keeps the check, whether its pin lets it run or not. -/
theorem stepProtocol_keeps_rotorsAll {c : Cfg} {g g' : Positions} (h : rotorsAll ok c g = true)
    (hg : stepProtocol c g = .next g') : rotorsAll ok c g' = true := by
  obtain ⟨g1, b, g2, a, g3, hchi, -, hpsi, -, hB, hA⟩ := stepProtocol_eq_next.1 hg
  have h1 : rotorsAll ok c g1 = true := advanceBank_keeps_rotorsAll hok h hchi
  have h2 : rotorsAll ok c g2 = true := by
    cases b with
    | false => cases hpsi; exact h1
    | true => exact advanceBank_keeps_rotorsAll hok h1 hpsi
  have h3 : rotorsAll ok c g3 = true := by
    cases a with
    | false => cases hB; exact h2
    | true => exact advanceRotor_keeps_rotorsAll hok h2 hB
  exact advanceRotor_keeps_rotorsAll hok h3 hA

/-- The step lemma of R22, for both checks that the claims use. -/
theorem exec_keeps_rotorsAll {i : Instr} {s t : State} (h : rotorsAll ok s.cfg s.pos = true)
    (hx : exec i s = .next t) : rotorsAll ok t.cfg t.pos = true := by
  cases i with
  | rotorPin r => obtain ⟨_, -, rfl⟩ := execRotorPin_eq_next.1 hx; exact h
  | rotorAdv r =>
    obtain ⟨g, hg, rfl⟩ := execRotorAdv_eq_next.1 hx
    exact advanceRotor_keeps_rotorsAll hok h hg
  | rotorHold r =>
    obtain ⟨g, hg, rfl⟩ := execRotorHold_eq_next.1 hx
    obtain ⟨-, rfl⟩ := holdRotor_eq_next.1 hg
    exact h
  | rotorReset r =>
    obtain ⟨g, hg, rfl⟩ := execRotorReset_eq_next.1 hx
    exact resetRotor_keeps_rotorsAll hok h hg
  | bankComb b => obtain ⟨_, -, rfl⟩ := execBankComb_eq_next.1 hx; exact h
  | bankAdv b =>
    obtain ⟨g, hg, rfl⟩ := execBankAdv_eq_next.1 hx
    exact advanceBank_keeps_rotorsAll hok h hg
  | bankHold b => obtain rfl := execBankHold_eq_next.1 hx; exact h
  | bankReset b =>
    obtain rfl := execBankReset_eq_next.1 hx
    exact resetBank_keeps_rotorsAll hok b h
  | engKey => obtain ⟨_, -, rfl⟩ := execEngKey_eq_next.1 hx; exact h
  | engStep =>
    obtain ⟨g, hg, rfl⟩ := execEngStep_eq_next.1 hx
    exact stepProtocol_keeps_rotorsAll hok h hg
  | engProcess code =>
    obtain ⟨-, _, -, g, hg, rfl⟩ := execEngProcess_eq_next.1 hx
    exact stepProtocol_keeps_rotorsAll hok h hg
  | engIdle => obtain rfl := execEngIdle_eq_next.1 hx; exact h
  | engReset =>
    obtain rfl := execEngReset_eq_next.1 hx
    rw [withFreeResult_cfg, withFreeResult_pos, resetAll_eq]
    exact rotorsAll_mono hok (ready_resetOf s.cfg)

end Keeps

/-! ### The invariant of R22, and the stop outside it -/

theorem valuelessOrInRange_of_inRange (t : PinTable) (q : Option Nat) (h : inRange t q = true) :
    valuelessOrInRange t q = true := by
  obtain ⟨p, rfl, hp⟩ := inRange_iff.1 h
  exact decide_eq_true hp

theorem exec_keeps_ready {i : Instr} {s t : State} (h : Ready s) (hx : exec i s = .next t) : Ready t :=
  exec_keeps_rotorsAll (fun _ _ hq => hq) h hx

theorem exec_keeps_legal {i : Instr} {s t : State} (h : Legal s) (hx : exec i s = .next t) : Legal t :=
  exec_keeps_rotorsAll valuelessOrInRange_of_inRange h hx

/-- A step is one operation on the state with a word taken, which changes no position. -/
theorem step_keeps_ready {s t : State} (h : Ready s) (hs : step s = .next t) : Ready t := by
  obtain ⟨-, hx⟩ | ⟨w, rest, i, -, -, hx⟩ := step_eq_next.1 hs
  · exact exec_keeps_ready h hx
  · exact exec_keeps_ready (s := { s with inputs := rest }) h hx

/-- The pin of a rotor whose position is no index of its table cannot be read (R43, U2). -/
theorem rotorPin_of_length_le {c : Cfg} {g : Positions} {r : RotorId} {t : PinTable} {p : Nat}
    (ht : table? c r = some t) (hq : reg? g r = some (some p)) (hp : t.length ≤ p) :
    rotorPin c g r = .fault .positionOutOfRange := by
  simp [rotorPin, rotorOf_eq_next.2 ⟨ht, hq⟩, currentPin, readPos, Nat.not_lt.2 hp]

/-- A rotor whose position is no index of its table does not advance (R22, U2). -/
theorem advanceRotor_of_length_le {c : Cfg} {g : Positions} {r : RotorId} {t : PinTable} {p : Nat}
    (ht : table? c r = some t) (hq : reg? g r = some (some p)) (hp : t.length ≤ p) :
    advanceRotor c r g = .fault .positionOutOfRange := by
  simp [advanceRotor, rotorOf_eq_next.2 ⟨ht, hq⟩, advanceReg, readPos, Nat.not_lt.2 hp]

/-- Settles O30: both invariants are checks that every valid index passes, so every operation keeps them; outside them
the read of the position faults. -/
theorem positionsStayValidIndices : Obligations.PositionsStayValidIndices := by
  refine ⟨ready_resetOf, fun _ _ => step_keeps_ready, fun _ _ _ => exec_keeps_ready, fun _ _ _ => exec_keeps_legal,
    fun s r t p ht hq hp => ⟨?pin, ?adv⟩⟩
  case pin => simp [exec, execRotorPin, rotorPin_of_length_le ht hq hp]
  case adv => simp [exec, execRotorAdv, advanceRotor_of_length_le ht hq hp]

end Sys2Proof.Machine
end

section
/-! PROOFS. The frame of every operation (R21, R23, R41, R44) and the width of a position register (R21, G3). -/

namespace Sys2Proof.Machine

/-- A write to one bank changes no other (R21). -/
theorem bankRegs_setBankRegs_other {g : Positions} {b b' : BankId} (h : b' ≠ b) (qs : List (Option Nat)) :
    bankRegs (setBankRegs g b qs) b' = bankRegs g b' := by
  cases b <;> cases b'
  · exact absurd rfl h
  · rfl
  · rfl
  · exact absurd rfl h

/-- Settles O33, operation by operation: each answers the state it was given with the fields written that its meaning
names, and a write to one register or one bank changes no other. -/
theorem frameOfEveryOperation : Obligations.FrameOfEveryOperation := by
  intro i s t hx
  cases i with
  | rotorPin r => obtain ⟨_, -, rfl⟩ := execRotorPin_eq_next.1 hx; exact ⟨rfl, rfl, rfl, rfl⟩
  | rotorAdv r =>
    obtain ⟨g, hg, rfl⟩ := execRotorAdv_eq_next.1 hx
    obtain ⟨_, _, -, -, -, rfl⟩ := advanceRotor_eq_next.1 hg
    exact ⟨rfl, rfl, rfl, fun _ hr => reg?_setReg_other hr _⟩
  | rotorHold r =>
    obtain ⟨g, hg, rfl⟩ := execRotorHold_eq_next.1 hx
    obtain ⟨-, rfl⟩ := holdRotor_eq_next.1 hg
    exact ⟨rfl, rfl, rfl, rfl⟩
  | rotorReset r =>
    obtain ⟨g, hg, rfl⟩ := execRotorReset_eq_next.1 hx
    obtain ⟨-, rfl⟩ := resetRotor_eq_next.1 hg
    exact ⟨rfl, rfl, rfl, fun _ hr => reg?_setReg_other hr _⟩
  | bankComb b => obtain ⟨_, -, rfl⟩ := execBankComb_eq_next.1 hx; exact ⟨rfl, rfl, rfl, rfl⟩
  | bankAdv b =>
    obtain ⟨g, hg, rfl⟩ := execBankAdv_eq_next.1 hx
    obtain ⟨-, rfl⟩ := advanceBank_eq_next.1 hg
    exact ⟨rfl, rfl, rfl, setBankRegs_controlA .., setBankRegs_controlB ..,
      fun _ hb => bankRegs_setBankRegs_other hb _⟩
  | bankHold b => obtain rfl := execBankHold_eq_next.1 hx; exact ⟨rfl, rfl, rfl, rfl⟩
  | bankReset b =>
    obtain rfl := execBankReset_eq_next.1 hx
    exact ⟨rfl, rfl, rfl, setBankRegs_controlA .., setBankRegs_controlB ..,
      fun _ hb => bankRegs_setBankRegs_other hb _⟩
  | engKey => obtain ⟨_, -, rfl⟩ := execEngKey_eq_next.1 hx; exact ⟨rfl, rfl, rfl, rfl⟩
  | engStep => obtain ⟨_, -, rfl⟩ := execEngStep_eq_next.1 hx; exact ⟨rfl, rfl, rfl⟩
  | engProcess code => obtain ⟨-, _, -, _, -, rfl⟩ := execEngProcess_eq_next.1 hx; exact ⟨rfl, rfl, rfl⟩
  | engIdle => obtain rfl := execEngIdle_eq_next.1 hx; exact ⟨rfl, rfl, rfl, rfl⟩
  | engReset => obtain rfl := execEngReset_eq_next.1 hx; exact ⟨rfl, rfl, rfl⟩

/-- `clog2 n` is the least `w` with `n ≤ 2 ^ w` (G3). -/
theorem clog2_le_iff {n : Nat} (hn : 1 ≤ n) (w : Nat) : clog2 n ≤ w ↔ n ≤ 2 ^ w := by
  unfold clog2
  split
  next h =>
    have := Nat.one_le_two_pow (n := w)
    omega
  next h =>
    have hlog : (n - 1).log2 < w ↔ n - 1 < 2 ^ w := Nat.log2_lt (by omega)
    omega

/-- Settles O42: a valid index is below the pin count, which is at most `2 ^ clog2`. -/
theorem positionsFitTheirRegisterWidth : Obligations.PositionsFitTheirRegisterWidth := by
  refine ⟨fun _ w hn => clog2_le_iff hn w, fun s r t p h ht hq => ?_⟩
  have hp : p < t.length := of_decide_eq_true (rotorsAll_reg? h ht hq)
  have hle : t.length ≤ 2 ^ positionWidth t := (clog2_le_iff (table?_length_pos ht) _).1 le_rfl
  refine ⟨Nat.lt_of_lt_of_le hp hle, fun h1 => ⟨?_, by omega⟩⟩
  simp [positionWidth, clog2, h1]

end Sys2Proof.Machine
end

section
/-! PROOFS. Repeated `ENG.PROCESS` (R33): a ready engine goes on, its positions after `n` symbols are the `n`-th iterate
of one function of the positions, and there are finitely many positions. -/

namespace Sys2Proof.Machine

/-! ### From registers in range every read and every advance answers, in range again (R137) -/

theorem rotorPin_of_inRange {c : Cfg} {g : Positions} {r : RotorId} {t : PinTable} (h : rotorsAll inRange c g = true)
    (ht : table? c r = some t) : ∃ pin, rotorPin c g r = .next pin := by
  obtain ⟨q, hq⟩ := rotorsAll_reg?_exists h ht
  obtain ⟨pin, hpin⟩ := currentPin_of_inRange (rotorsAll_reg? h ht hq)
  exact ⟨pin, by simp [rotorPin, rotorOf_eq_next.2 ⟨ht, hq⟩, hpin]⟩

theorem advanceRotor_of_inRange {c : Cfg} {g : Positions} {r : RotorId} {t : PinTable}
    (h : rotorsAll inRange c g = true) (ht : table? c r = some t) :
    ∃ g', advanceRotor c r g = .next g' ∧ rotorsAll inRange c g' = true := by
  obtain ⟨q, hq⟩ := rotorsAll_reg?_exists h ht
  obtain ⟨p, rfl, hp⟩ := inRange_iff.1 (rotorsAll_reg? h ht hq)
  have hg := advanceRotor_eq_next.2 ⟨t, p, ht, hq, hp, rfl⟩
  exact ⟨_, hg, advanceRotor_keeps_rotorsAll (fun _ _ hq => hq) h hg⟩

theorem advanceBank_of_inRange {c : Cfg} {g : Positions} (h : rotorsAll inRange c g = true) (b : BankId) :
    ∃ g', advanceBank c b g = .next g' ∧ rotorsAll inRange c g' = true := by
  have hg := advanceBank_eq_next.2 ⟨rotorsAll_bank h b, rfl⟩
  exact ⟨_, hg, advanceBank_keeps_rotorsAll (fun _ _ hq => hq) h hg⟩

theorem deriveKey_of_inRange {c : Cfg} {g : Positions} (h : rotorsAll inRange c g = true) :
    ∃ key, deriveKey c g = .next key := by
  obtain ⟨psiComb, hpsi⟩ := bankComb_of_inRange (rotorsAll_bank h .psi)
  obtain ⟨chiComb, hchi⟩ := bankComb_of_inRange (rotorsAll_bank h .chi)
  exact ⟨_, deriveKey_eq_next.2 ⟨psiComb, chiComb, hpsi, hchi, rfl⟩⟩

/-- What answers in range on its own does so behind a pin, which lets it run or keeps the positions. -/
theorem gated_of_inRange {c : Cfg} {g : Positions} {x : Answer Positions} (h : rotorsAll inRange c g = true)
    (hx : ∃ g', x = .next g' ∧ rotorsAll inRange c g' = true) (b : Bit) :
    ∃ g', (if b = true then x else .next g) = .next g' ∧ rotorsAll inRange c g' = true := by
  cases b with
  | false => exact ⟨g, rfl, h⟩
  | true => exact hx

/-- Each of the four parts answers, since the parts before it keep the registers in range. -/
theorem stepProtocol_of_inRange {c : Cfg} {g : Positions} (h : rotorsAll inRange c g = true) :
    ∃ g', stepProtocol c g = .next g' ∧ rotorsAll inRange c g' = true := by
  obtain ⟨g1, hchi, h1⟩ := advanceBank_of_inRange h .chi
  obtain ⟨b, hb⟩ := rotorPin_of_inRange (r := .controlB) h1 rfl
  obtain ⟨g2, hpsi, h2⟩ := gated_of_inRange h1 (advanceBank_of_inRange h1 .psi) b
  obtain ⟨a, ha⟩ := rotorPin_of_inRange (r := .controlA) h2 rfl
  obtain ⟨g3, hB, h3⟩ := gated_of_inRange h2 (advanceRotor_of_inRange (r := .controlB) h2 rfl) a
  obtain ⟨g', hA, h4⟩ := advanceRotor_of_inRange (r := .controlA) h3 rfl
  exact ⟨g', stepProtocol_eq_next.2 ⟨g1, b, g2, a, g3, hchi, hb, hpsi, ha, hB, hA⟩, h4⟩

/-! ### One `PROCESS` word -/

theorem wordFits_processWord {c : Cfg} {code : Nat} (h : code < 2 ^ c.dataW) : wordFits c (processWord code) := by
  rw [wordFits, processWord, Nat.pow_add]
  omega

@[simp] theorem wordRst_ofNat (n w : Nat) : wordRst (BitVec.ofNat (n + 2) w) = w.testBit 1 := by
  rw [wordRst, BitVec.getLsbD_ofNat, decide_eq_true (by omega), Bool.true_and]

@[simp] theorem wordGo_ofNat (n w : Nat) : wordGo (BitVec.ofNat (n + 2) w) = w.testBit 0 := by
  rw [wordGo, BitVec.getLsbD_ofNat, decide_eq_true (by omega), Bool.true_and]

/-- The code field is what stands above the two low bits (R61). -/
theorem wordCode_ofNat {n w : Nat} (h : w < 2 ^ (n + 2)) : wordCode n (BitVec.ofNat (n + 2) w) = w / 4 := by
  have hcode : w / 4 < 2 ^ n := by rw [Nat.pow_add] at h; omega
  rw [wordCode, BitVec.extractLsb'_toNat, BitVec.toNat_ofNat, Nat.mod_eq_of_lt h, Nat.shiftRight_eq_div_pow]
  exact Nat.mod_eq_of_lt hcode

/-- The word `PROCESS code` asks for `ENG.PROCESS code` (R61, R62). -/
theorem decodeEng_processWord {c : Cfg} {code : Nat} (h : code < 2 ^ c.dataW) :
    decodeEng c.dataW (BitVec.ofNat _ (processWord code)) = .engProcess code := by
  have hrst : (processWord code).testBit 1 = false := by
    rw [Nat.testBit_eq_decide_div_mod_eq, processWord, decide_eq_false_iff_not]
    omega
  have hgo : (processWord code).testBit 0 = true := by
    rw [Nat.testBit_eq_decide_div_mod_eq, processWord, decide_eq_true_iff]
    omega
  have hcode : processWord code / 4 = code := by rw [processWord]; omega
  simp [decodeEng, hrst, hgo, wordCode_ofNat (wordFits_processWord h), hcode]

/-- A ready engine answers a `PROCESS` word, and its positions take one turn of the protocol (R120). -/
theorem step_processWord_of_ready {s : State} {code : Nat} (h : Ready s) (hcode : code < 2 ^ s.cfg.dataW) :
    ∃ t, step { s with inputs := [processWord code] } = .next t ∧ t.cfg = s.cfg ∧
      stepProtocol s.cfg s.pos = .next t.pos := by
  obtain ⟨key, hkey⟩ := deriveKey_of_inRange h
  obtain ⟨g, hg, -⟩ := stepProtocol_of_inRange h
  refine ⟨{ s with pos := g, inputs := [], out := .engOut s.cfg.rw (maskCode s.cfg code key) },
    step_oneWord.2 ⟨wordFits_processWord hcode, ?_⟩, rfl, hg⟩
  rw [decodeEng_processWord hcode]
  exact execEngProcess_eq_next.2 ⟨decide_eq_true hcode, key, hkey, g, hg, rfl⟩

/-! ### The positions along repeated `PROCESS` -/

/-- The positions after one turn of the stepping protocol; where it stops, the positions it was given. -/
def protocolMove (c : Cfg) (g : Positions) : Positions :=
  match stepProtocol c g with
  | .next g'   => g'
  | .fault _   => g
  | .refused _ => g

theorem protocolMove_of_next {c : Cfg} {g g' : Positions} (h : stepProtocol c g = .next g') :
    protocolMove c g = g' := by
  simp [protocolMove, h]

theorem protocolMove_keeps_inRange {c : Cfg} {g : Positions} (h : rotorsAll inRange c g = true) :
    rotorsAll inRange c (protocolMove c g) = true := by
  obtain ⟨g', hg, h'⟩ := stepProtocol_of_inRange h
  rw [protocolMove_of_next hg]
  exact h'

theorem protocolMove_iterate_keeps_inRange {c : Cfg} {g : Positions} (h : rotorsAll inRange c g = true) (n : Nat) :
    rotorsAll inRange c ((protocolMove c)^[n] g) = true := by
  induction n with
  | zero => exact h
  | succ n ih => rw [Function.iterate_succ_apply']; exact protocolMove_keeps_inRange ih

/-- `n` times the same `PROCESS` word, from a ready state: the positions are the `n`-th iterate of the protocol. -/
theorem runWords_replicate_processWord {s : State} {code : Nat} (h : Ready s) (hcode : code < 2 ^ s.cfg.dataW)
    (n : Nat) : ∃ results u, runWords s (List.replicate n (processWord code)) = some (results, u) ∧
      u.pos = (protocolMove s.cfg)^[n] s.pos := by
  induction n generalizing s with
  | zero => exact ⟨[], s, runWords_nil s, rfl⟩
  | succ n ih =>
    obtain ⟨t, hstep, hcfg, hpos⟩ := step_processWord_of_ready h hcode
    have ht : Ready t := step_keeps_ready (s := { s with inputs := [processWord code] }) h hstep
    obtain ⟨rest, u, hrun, hu⟩ := ih ht (hcfg.symm ▸ hcode)
    refine ⟨_, u, runWords_cons.2 ⟨t, rest, hstep, hrun, rfl⟩, ?_⟩
    rw [hu, hcfg, Function.iterate_succ_apply, protocolMove_of_next hpos]

/-! ### Finitely many positions -/

theorem finite_inRange (t : PinTable) : {q | inRange t q = true}.Finite := by
  refine ((Set.finite_Iio t.length).image some).subset fun q hq => ?_
  obtain ⟨p, rfl, hp⟩ := inRange_iff.1 hq
  exact ⟨p, hp, rfl⟩

theorem finite_membersAll_inRange (ts : List PinTable) : {qs | membersAll inRange ts qs = true}.Finite := by
  induction ts with
  | nil =>
    refine (Set.finite_singleton []).subset fun qs hqs => ?_
    exact List.length_eq_zero_iff.1 (membersAll_length hqs)
  | cons t ts ih =>
    refine ((finite_inRange t).image2 List.cons ih).subset fun qs hqs => ?_
    cases qs with
    | nil => simp [membersAll] at hqs
    | cons q qs =>
      obtain ⟨hq, hqs⟩ : inRange t q = true ∧ membersAll inRange ts qs = true := by simpa [membersAll] using hqs
      exact ⟨q, hq, qs, hqs, rfl⟩

/-- A configuration has finitely many positions in range (R33). -/
theorem finite_rotorsAll_inRange (c : Cfg) : {g | rotorsAll inRange c g = true}.Finite := by
  have hfin := ((finite_inRange c.raw.controlA).prod (finite_inRange c.raw.controlB)).prod
    ((finite_membersAll_inRange c.raw.bankPsi).prod (finite_membersAll_inRange c.raw.bankChi))
  refine (hfin.image fun x => Positions.mk x.1.1 x.1.2 x.2.1 x.2.2).subset fun g hg => ?_
  obtain ⟨hA, hB, hP, hC⟩ := rotorsAll_iff.1 hg
  exact ⟨((g.controlA, g.controlB), (g.psi, g.chi)), ⟨⟨hA, hB⟩, ⟨hP, hC⟩⟩, rfl⟩

/-- Two iterates that agree keep agreeing. -/
theorem iterate_eq_iterate_add {α : Type} {f : α → α} {x : α} {i j n : Nat} (hij : i ≤ j)
    (h : f^[i] x = f^[j] x) (hn : i ≤ n) : f^[n] x = f^[n + (j - i)] x := by
  rw [show n = (n - i) + i by omega, Function.iterate_add_apply, h, ← Function.iterate_add_apply,
    show n - i + j = n - i + i + (j - i) by omega]

/-- Settles O19: among finitely many positions two iterates of the protocol agree, and the sequence repeats from
there. -/
theorem repeatedProcessIsEventuallyPeriodic : Obligations.RepeatedProcessIsEventuallyPeriodic := by
  intro s h
  obtain ⟨i, j, hij, heq⟩ := Set.Finite.exists_lt_map_eq_of_forall_mem
    (protocolMove_iterate_keeps_inRange h) (finite_rotorsAll_inRange s.cfg)
  refine ⟨i, j - i, by omega, fun n hn => ?_⟩
  obtain ⟨r1, u1, hrun1, hpos1⟩ := runWords_replicate_processWord h (Nat.two_pow_pos _) n
  obtain ⟨r2, u2, hrun2, hpos2⟩ := runWords_replicate_processWord h (Nat.two_pow_pos _) (n + (j - i))
  exact ⟨r1, r2, u1, u2, hrun1, hrun2, by rw [hpos1, hpos2, iterate_eq_iterate_add hij.le heq hn]⟩

end Sys2Proof.Machine
end

section
/-! PROOFS. A position that is no index of its table faults wherever it is read (R43, R52, U2). Each operation answers
only where the registers it reads are in range; with a value in every register it refuses nothing, so it faults. -/

namespace Sys2Proof.Machine

/-! ### An operation that answers has read registers in range -/

theorem not_inRange_of_length_le {t : PinTable} {p : Nat} (hp : t.length ≤ p) : ¬ inRange t (some p) = true := by
  simpa [inRange] using hp

theorem inRange_of_rotorPin_eq_next {c : Cfg} {g : Positions} {r : RotorId} {b : Bit} {t : PinTable} {q : Option Nat}
    (ht : table? c r = some t) (hq : reg? g r = some q) (h : rotorPin c g r = .next b) : inRange t q = true := by
  obtain ⟨t', p, ht', hq', hb⟩ := rotorPin_eq_next.1 h
  obtain rfl : t = t' := Option.some.inj (ht.symm.trans ht')
  obtain rfl : q = some p := Option.some.inj (hq.symm.trans hq')
  exact inRange_iff.2 ⟨p, rfl, (List.getElem?_eq_some_iff.1 hb).1⟩

/-- The combined value reads the pin of every member (R90). -/
theorem membersAll_inRange_of_bankComb_eq_next {c : Cfg} {g : Positions} {b : BankId} {v : BitVec c.k}
    (h : bankComb c g b = .next v) : membersAll inRange (bankTables c b) (bankRegs g b) = true := by
  obtain ⟨pins, hpins, -⟩ := bankComb_eq_next.1 h
  obtain ⟨hl, -, hread⟩ := memberPins_eq_next.1 hpins
  refine membersAll_iff.2 ⟨hl, fun i t q ht hq => ?_⟩
  obtain ⟨bit, -, hbit⟩ := hread i t q ht hq
  obtain ⟨p, rfl, hp⟩ := currentPin_eq_next.1 hbit
  exact inRange_iff.2 ⟨p, rfl, (List.getElem?_eq_some_iff.1 hp).1⟩

/-- The key reads every member of both banks (R100). -/
theorem membersAll_inRange_of_deriveKey_eq_next {c : Cfg} {g : Positions} {key : BitVec c.k}
    (h : deriveKey c g = .next key) (b : BankId) : membersAll inRange (bankTables c b) (bankRegs g b) = true := by
  obtain ⟨psiComb, chiComb, hpsi, hchi, -⟩ := deriveKey_eq_next.1 h
  cases b with
  | psi => exact membersAll_inRange_of_bankComb_eq_next hpsi
  | chi => exact membersAll_inRange_of_bankComb_eq_next hchi

/-- The stepping protocol reads every register, a Psi member's only where `mB` is 1: the parts before a read write
other registers (R105, R106). -/
theorem inRange_of_stepProtocol_eq_next {c : Cfg} {g g' : Positions} {r : RotorId} {t : PinTable} {q : Option Nat}
    (h : stepProtocol c g = .next g') (ht : table? c r = some t) (hq : reg? g r = some q)
    (hmB : ∀ i, r = .psi i → mB c g = .next true) : inRange t q = true := by
  obtain ⟨g1, b, g2, a, g3, hchi, hb, hpsi, ha, -, -⟩ := stepProtocol_eq_next.1 h
  obtain ⟨hchiIn, rfl⟩ := advanceBank_eq_next.1 hchi
  cases r with
  | controlA =>
    have hA : g2.controlA = g.controlA := by
      cases b with
      | false => cases hpsi; rfl
      | true => obtain ⟨-, rfl⟩ := advanceBank_eq_next.1 hpsi; rfl
    exact inRange_of_rotorPin_eq_next ht hq ((mA_congr hA).symm.trans ha)
  | controlB => exact inRange_of_rotorPin_eq_next (r := .controlB) ht hq ((mB_congr rfl).symm.trans hb)
  | psi i =>
    obtain rfl : b = true := by simpa using (hb.symm.trans (mB_congr rfl)).trans (hmB i rfl)
    obtain ⟨hpsiIn, -⟩ := advanceBank_eq_next.1 hpsi
    exact (membersAll_iff.1 hpsiIn).2 i t q ht hq
  | chi i => exact (membersAll_iff.1 hchiIn).2 i t q ht hq

/-- `ENG.PROCESS` reads every register: the key the banks, the protocol the control rotors (R120). -/
theorem ready_of_execEngProcess_eq_next {s u : State} {code : Nat} (h : execEngProcess code s = .next u) :
    Ready s := by
  obtain ⟨-, key, hkey, g, hg, -⟩ := execEngProcess_eq_next.1 h
  exact rotorsAll_iff.2
    ⟨inRange_of_stepProtocol_eq_next (r := .controlA) hg rfl rfl nofun,
      inRange_of_stepProtocol_eq_next (r := .controlB) hg rfl rfl nofun,
      membersAll_inRange_of_deriveKey_eq_next hkey .psi, membersAll_inRange_of_deriveKey_eq_next hkey .chi⟩

/-! ### With a value in every register, an operation that does not answer faults -/

/-- What reads a bank faults where one of its members is out of range. -/
theorem exec_bank_fault {s : State} {b : BankId} (hv : Valued s)
    (h : ¬ membersAll inRange (bankTables s.cfg b) (bankRegs s.pos b) = true) :
    exec (.bankComb b) s = .fault .positionOutOfRange ∧ exec (.bankAdv b) s = .fault .positionOutOfRange ∧
      exec .engKey s = .fault .positionOutOfRange := by
  have hbank := rotorsAll_bank hv b
  have hcomb := eq_fault_of_notRefused (bankComb_notRefused hbank) fun _ hx =>
    h (membersAll_inRange_of_bankComb_eq_next hx)
  have hadv := eq_fault_of_notRefused (advanceBank_notRefused hbank) fun _ hx => h (advanceBank_eq_next.1 hx).1
  have hkey := eq_fault_of_notRefused (deriveKey_notRefused hv) fun _ hx =>
    h (membersAll_inRange_of_deriveKey_eq_next hx b)
  exact ⟨by simp [exec, execBankComb, hcomb], by simp [exec, execBankAdv, hadv], by simp [exec, execEngKey, hkey]⟩

theorem exec_engStep_fault {s : State} {r : RotorId} {t : PinTable} {p : Nat} (hv : Valued s)
    (ht : table? s.cfg r = some t) (hq : reg? s.pos r = some (some p)) (hp : t.length ≤ p)
    (hmB : ∀ i, r = .psi i → mB s.cfg s.pos = .next true) : exec .engStep s = .fault .positionOutOfRange := by
  have hstep := eq_fault_of_notRefused (stepProtocol_notRefused hv) fun _ hx =>
    not_inRange_of_length_le hp (inRange_of_stepProtocol_eq_next hx ht hq hmB)
  simp [exec, execEngStep, hstep]

theorem execEngProcess_notRefused {s : State} {code : Nat} (hv : Valued s) (hcode : code < 2 ^ s.cfg.dataW) :
    NotRefused (execEngProcess code s) := by
  have hfits : codeFits s.cfg code = true := decide_eq_true hcode
  rw [execEngProcess, if_pos hfits]
  exact andThen_notRefused (deriveKey_notRefused hv) fun _ _ =>
    andThen_notRefused (stepProtocol_notRefused hv) fun _ _ => notRefused_next _

/-- Settles O43: each operation that reads the position answers only where it is in range, and refuses nothing. -/
theorem outOfRangePositionFaultsWhereverItIsRead : Obligations.OutOfRangePositionFaultsWhereverItIsRead := by
  intro s r t p hv ht hq hp
  have hout : ¬ inRange t (some p) = true := not_inRange_of_length_le hp
  obtain ⟨-, -, -, -, hrotor⟩ := positionsStayValidIndices
  obtain ⟨hpin, hadv⟩ := hrotor s r t p ht hq hp
  refine ⟨hpin, hadv, fun code hcode => ?process, ?byKind⟩
  case process =>
    exact eq_fault_of_notRefused (execEngProcess_notRefused hv hcode) fun _ hx =>
      hout (rotorsAll_reg? (ready_of_execEngProcess_eq_next hx) ht hq)
  case byKind =>
    cases r with
    | controlA => exact exec_engStep_fault hv ht hq hp nofun
    | controlB => exact exec_engStep_fault hv ht hq hp nofun
    | psi i =>
      obtain ⟨hcomb, hbankAdv, hkey⟩ := exec_bank_fault (b := .psi) hv fun h =>
        hout ((membersAll_iff.1 h).2 i t _ ht hq)
      exact ⟨hcomb, hbankAdv, hkey, fun hmB => exec_engStep_fault hv ht hq hp fun _ _ => hmB⟩
    | chi i =>
      obtain ⟨hcomb, hbankAdv, hkey⟩ := exec_bank_fault (b := .chi) hv fun h =>
        hout ((membersAll_iff.1 h).2 i t _ ht hq)
      exact ⟨hcomb, hbankAdv, hkey, exec_engStep_fault hv ht hq hp nofun⟩

end Sys2Proof.Machine
end

section
/-! PROOFS. The decoder and the encoder (R60 to R65, R67, R72). The three formats have one shape: bit 1 is a reset and
goes first, bit 0 is a move, and neither is no call; each port says which three operations these are. -/

namespace Sys2Proof

/-! ### The three operations of a port -/

/-- What bit 1 asks for at the port (R62 to R64). -/
def Port.resetOp : Port → Instr
  | .eng     => .engReset
  | .bank b  => .bankReset b
  | .rotor r => .rotorReset r

/-- What bit 0 asks for at the port, the bits above it being `code` (R62 to R64); only the engine reads them. -/
def Port.goOp (code : Nat) : Port → Instr
  | .eng     => .engProcess code
  | .bank b  => .bankAdv b
  | .rotor r => .rotorAdv r

/-- What a word with neither bit asks for at the port (R62 to R64). -/
def Port.holdOp : Port → Instr
  | .eng     => .engIdle
  | .bank b  => .bankHold b
  | .rotor r => .rotorHold r

/-! ### The decoder -/

theorem decodeAt_eq {c : Cfg} {p : Port} {w : Nat} (hw : w < 2 ^ portWidth c p) :
    decodeAt c p w =
      if w.testBit 1 then p.resetOp else if w.testBit 0 then p.goOp (w / 4) else p.holdOp := by
  cases p with
  | eng =>
    rw [decodeAt, decodeEng, Machine.wordRst_ofNat, Machine.wordGo_ofNat, Machine.wordCode_ofNat hw]
    rfl
  | bank b => rw [decodeAt, decodeBank, Machine.wordRst_ofNat 0, Machine.wordGo_ofNat 0]; rfl
  | rotor r => rw [decodeAt, decodeRotor, Machine.wordRst_ofNat 0, Machine.wordGo_ofNat 0]; rfl

theorem decode_eq_ok {c : Cfg} {p : Port} {w : Nat} {i : Instr} :
    decode c ⟨p, w⟩ = .ok i ↔
      portExists c p = true ∧ w < 2 ^ portWidth c p ∧ i = decodeAt c p w := by
  by_cases hp : portExists c p = true <;> by_cases hw : w < 2 ^ portWidth c p <;> simp [decode, hp, hw, eq_comm]

section PortWord

variable {c : Cfg} {p : Port} {w : Nat} (hp : portExists c p = true) (hw : w < 2 ^ portWidth c p)
include hp hw

theorem decode_reset (hrst : w.testBit 1 = true) : decode c ⟨p, w⟩ = .ok p.resetOp :=
  decode_eq_ok.2 ⟨hp, hw, by simp [decodeAt_eq hw, hrst]⟩

theorem decode_go (hrst : w.testBit 1 = false) (hgo : w.testBit 0 = true) :
    decode c ⟨p, w⟩ = .ok (p.goOp (w / 4)) :=
  decode_eq_ok.2 ⟨hp, hw, by rw [decodeAt_eq hw, hrst, hgo]; rfl⟩

theorem decode_hold (hrst : w.testBit 1 = false) (hgo : w.testBit 0 = false) :
    decode c ⟨p, w⟩ = .ok p.holdOp :=
  decode_eq_ok.2 ⟨hp, hw, by rw [decodeAt_eq hw, hrst, hgo]; rfl⟩

end PortWord

/-- Every word of a port is decoded by one of the three lemmas above. -/
theorem eq_of_decode_eq_ok {c : Cfg} {p : Port} {w : Nat} {i : Instr} (h : decode c ⟨p, w⟩ = .ok i) :
    i = p.resetOp ∨ i = p.goOp (w / 4) ∨ i = p.holdOp := by
  obtain ⟨-, hw, rfl⟩ := decode_eq_ok.1 h
  rw [decodeAt_eq hw]
  split
  · exact .inl rfl
  · split
    · exact .inr (.inl rfl)
    · exact .inr (.inr rfl)

/-- Settles O35: at the engine's port the three operations are reset, process and idle. -/
theorem engineWordDecodesWithResetFirst : Obligations.EngineWordDecodesWithResetFirst :=
  fun _ _ hw => ⟨decode_reset rfl hw, decode_go rfl hw, decode_hold rfl hw⟩

/-- Settles O38: each word is evaluated. -/
theorem writtenOutWordsDecode : Obligations.WrittenOutWordsDecode := ⟨rfl, rfl, rfl, rfl, rfl, rfl⟩

/-! ### The encoder -/

@[simp] theorem encode_resetOp (p : Port) : encode p.resetOp = some ⟨p, 0b10⟩ := by cases p <;> rfl

@[simp] theorem encode_holdOp (p : Port) : encode p.holdOp = some ⟨p, 0b00⟩ := by cases p <;> rfl

theorem encode_goOp_port (p : Port) (code : Nat) : ∃ w, encode (p.goOp code) = some ⟨p, w⟩ := by
  cases p <;> exact ⟨_, rfl⟩

theorem wf_resetOp (c : Cfg) (p : Port) : p.resetOp.wf c = portExists c p := by cases p <;> rfl

theorem wf_holdOp (c : Cfg) (p : Port) : p.holdOp.wf c = portExists c p := by cases p <;> rfl

/-- The code in a word that the engine's port carries fits the code input (R66). -/
theorem wf_goOp {c : Cfg} {p : Port} {w : Nat} (hp : portExists c p = true) (hw : w < 2 ^ portWidth c p) :
    (p.goOp (w / 4)).wf c = true := by
  cases p with
  | eng =>
    have hcode : w / 4 < 2 ^ c.dataW := by rw [portWidth, Nat.pow_add] at hw; omega
    exact decide_eq_true hcode
  | bank b => rfl
  | rotor r => exact hp

theorem decode_wf {c : Cfg} {p : Port} {w : Nat} {i : Instr} (h : decode c ⟨p, w⟩ = .ok i) : i.wf c = true := by
  obtain ⟨hp, hw, -⟩ := decode_eq_ok.1 h
  obtain rfl | rfl | rfl := eq_of_decode_eq_ok h
  · exact (wf_resetOp c p).trans hp
  · exact wf_goOp hp hw
  · exact (wf_holdOp c p).trans hp

theorem encode_of_decode {c : Cfg} {p : Port} {w : Nat} {i : Instr} (h : decode c ⟨p, w⟩ = .ok i) :
    ∃ w', encode i = some ⟨p, w'⟩ := by
  obtain rfl | rfl | rfl := eq_of_decode_eq_ok h
  · exact ⟨_, encode_resetOp p⟩
  · exact encode_goOp_port p _
  · exact ⟨_, encode_holdOp p⟩

/-- The family `EncodedWordFits`, for every operation. -/
theorem encodedWordFits : ∀ i : Instr, Laws.EncodedWordFits.Statement i
  | .rotorPin r      => Laws.EncodedWordFits.rotorPin r
  | .rotorAdv r      => Laws.EncodedWordFits.rotorAdv r
  | .rotorHold r     => Laws.EncodedWordFits.rotorHold r
  | .rotorReset r    => Laws.EncodedWordFits.rotorReset r
  | .bankComb b      => Laws.EncodedWordFits.bankComb b
  | .bankAdv b       => Laws.EncodedWordFits.bankAdv b
  | .bankHold b      => Laws.EncodedWordFits.bankHold b
  | .bankReset b     => Laws.EncodedWordFits.bankReset b
  | .engKey          => Laws.EncodedWordFits.engKey
  | .engStep         => Laws.EncodedWordFits.engStep
  | .engProcess code => Laws.EncodedWordFits.engProcess code
  | .engIdle         => Laws.EncodedWordFits.engIdle
  | .engReset        => Laws.EncodedWordFits.engReset

/-- An encoded word fits its port and has the bits of its operation. -/
theorem decode_encode {c : Cfg} {i : Instr} {cmd : Command} (hwf : i.wf c = true) (h : encode i = some cmd) :
    decode c cmd = .ok i := by
  obtain ⟨hp, hw⟩ := encodedWordFits i c cmd hwf h
  cases i with
  | rotorPin | bankComb | engKey | engStep => cases h
  | rotorReset | bankReset | engReset => cases h; exact decode_reset hp hw (by decide)
  | rotorAdv | bankAdv => cases h; exact decode_go hp hw (by decide) (by decide)
  | rotorHold | bankHold | engIdle => cases h; exact decode_hold hp hw (by decide) (by decide)
  | engProcess code =>
    cases h
    exact (Machine.decode_eng hw).trans (congrArg _ (Machine.decodeEng_processWord (of_decide_eq_true hwf)))

/-- Settles O37: an encoded word fits its port and has the bits of its operation; what a port decodes is one of its
three operations, each well formed and encoded at that port. -/
theorem decodeOfEncodeIsTheOperation : Obligations.DecodeOfEncodeIsTheOperation := by
  refine ⟨fun _ _ _ => decode_encode, fun c i hnone cmd hd => ?_, fun c i cmd hd => ?_⟩
  · obtain ⟨w, hw⟩ := encode_of_decode hd
    cases hnone.symm.trans hw
  · obtain ⟨w, hw⟩ := encode_of_decode hd
    exact ⟨decode_wf hd, _, hw, rfl, decode_encode (decode_wf hd) hw⟩

/-! ### The rows of the opcode table -/

theorem testBit_one_iff (w : Nat) : w.testBit 1 = true ↔ 2 ≤ w % 4 := by
  rw [Nat.testBit_eq_decide_div_mod_eq, decide_eq_true_iff]
  omega

theorem and_three_eq_mod_four (w : Nat) : w &&& 0b11 = w % 4 := Nat.and_two_pow_sub_one_eq_mod w 2

/-- The mask and match of the rows of a reset (R72). -/
theorem and_two_eq_two_iff (w : Nat) : w &&& 0b10 = 0b10 ↔ w.testBit 1 = true := by
  have h : w &&& 0b10 = (w.testBit 1).toNat * 2 := Nat.and_two_pow w 1
  cases hrst : w.testBit 1 <;> simp [h, hrst]

/-- The mask and match of the rows of a move (R72). -/
theorem and_three_eq_one_iff (w : Nat) : w &&& 0b11 = 0b01 ↔ w.testBit 1 = false ∧ w.testBit 0 = true := by
  rw [← Bool.not_eq_true, testBit_one_iff, and_three_eq_mod_four, Nat.testBit_zero, decide_eq_true_iff]
  omega

/-- The mask and match of the rows of no call (R72). -/
theorem and_three_eq_zero_iff (w : Nat) : w &&& 0b11 = 0b00 ↔ w.testBit 1 = false ∧ w.testBit 0 = false := by
  rw [← Bool.not_eq_true, ← Bool.not_eq_true, testBit_one_iff, and_three_eq_mod_four, Nat.testBit_zero,
    decide_eq_true_iff]
  omega

/-- A row selects a word exactly when it is the row of the operation that the decoder gives. -/
theorem selects_iff_mnemonic {c : Cfg} {p : Port} {w : Nat} {i : Instr} (h : decode c ⟨p, w⟩ = .ok i) :
    ∀ row ∈ opcodeRows, row.selects p w = true ↔ row.mnemonic = mnemonicOf i := by
  obtain ⟨-, hw, rfl⟩ := decode_eq_ok.1 h
  rw [decodeAt_eq hw]
  cases hrst : w.testBit 1 with
  | true => cases p <;> simp [opcodeRows, OpcodeRow.selects, portFormat, mnemonicOf, Port.resetOp,
      and_two_eq_two_iff, and_three_eq_one_iff, and_three_eq_zero_iff, hrst]
  | false =>
    cases hgo : w.testBit 0 with
    | true => cases p <;> simp [opcodeRows, OpcodeRow.selects, portFormat, mnemonicOf, Port.goOp,
        and_two_eq_two_iff, and_three_eq_one_iff, and_three_eq_zero_iff, hrst, hgo, -Nat.testBit_zero]
    | false => cases p <;> simp [opcodeRows, OpcodeRow.selects, portFormat, mnemonicOf, Port.holdOp,
        and_two_eq_two_iff, and_three_eq_one_iff, and_three_eq_zero_iff, hrst, hgo, -Nat.testBit_zero]

theorem row_eq_of_mnemonic_eq :
    ∀ row ∈ opcodeRows, ∀ row' ∈ opcodeRows, row'.mnemonic = row.mnemonic → row' = row := by decide

/-- Whatever a port decodes has a row in the opcode table. -/
theorem exists_row_of_decode {c : Cfg} {p : Port} {w : Nat} {i : Instr} (h : decode c ⟨p, w⟩ = .ok i) :
    ∃ row ∈ opcodeRows, row.mnemonic = mnemonicOf i := by
  obtain rfl | rfl | rfl := eq_of_decode_eq_ok h
  · cases p <;> simp [opcodeRows, mnemonicOf, Port.resetOp]
  · cases p <;> simp [opcodeRows, mnemonicOf, Port.goOp]
  · cases p <;> simp [opcodeRows, mnemonicOf, Port.holdOp]

/-- A reset ignores every bit but its own, and no call every bit above the two low ones (R62 to R64). -/
theorem decode_congr {c : Cfg} {p : Port} {w w' : Nat} (hp : portExists c p = true) (hw : w < 2 ^ portWidth c p)
    (hw' : w' < 2 ^ portWidth c p) (h : w % 4 = w' % 4 ∧ w % 4 ≠ 1 ∨ 2 ≤ w % 4 ∧ 2 ≤ w' % 4) :
    decode c ⟨p, w⟩ = decode c ⟨p, w'⟩ := by
  by_cases hrst : 2 ≤ w % 4
  · have hrst' : 2 ≤ w' % 4 := by omega
    rw [decode_reset hp hw ((testBit_one_iff w).2 hrst), decode_reset hp hw' ((testBit_one_iff w').2 hrst')]
  · have hz : w % 4 = 0 := by omega
    have hz' : w' % 4 = 0 := by omega
    obtain ⟨h1, h0⟩ := (and_three_eq_zero_iff w).1 ((and_three_eq_mod_four w).trans hz)
    obtain ⟨h1', h0'⟩ := (and_three_eq_zero_iff w').1 ((and_three_eq_mod_four w').trans hz')
    rw [decode_hold hp hw h1 h0, decode_hold hp hw' h1' h0']

/-- Settles O36: the row is that of the decoded operation, and no two rows share a mnemonic. -/
theorem everyPortWordIsSelectedByExactlyOneRow : Obligations.EveryPortWordIsSelectedByExactlyOneRow := by
  refine ⟨fun c p w hp hw => ?_, fun c p w w' => decode_congr⟩
  have hd : decode c ⟨p, w⟩ = .ok (decodeAt c p w) := decode_eq_ok.2 ⟨hp, hw, rfl⟩
  obtain ⟨row, hrow, hm⟩ := exists_row_of_decode hd
  refine ⟨row, hrow, (selects_iff_mnemonic hd row hrow).2 hm, fun row' hrow' hsel => ?_, _, hd, hm.symm⟩
  exact row_eq_of_mnemonic_eq row hrow row' hrow' (((selects_iff_mnemonic hd row' hrow').1 hsel).trans hm.symm)

end Sys2Proof
end

section
/-! PROOFS. The engine on its inner ports (R71, R107), and the keystream (R70). The words on the inner ports reset every
cell, hold every cell, or move the cells that the simultaneous update moves; the ordered protocol makes that same
update, because the pins it reads belong to registers it has not written yet (R106). -/

namespace Sys2Proof.Machine

/-! ### A cell and a bank on one edge -/

@[simp] theorem wordRst_innerWord (rst adv : Bit) : wordRst (innerWord rst adv) = rst := by
  cases rst <;> cases adv <;> rfl

@[simp] theorem wordGo_innerWord (rst adv : Bit) : wordGo (innerWord rst adv) = adv := by
  cases rst <;> cases adv <;> rfl

@[simp] theorem cellEdge_reset (t : PinTable) (adv : Bit) (q : Option Nat) :
    cellEdge t (innerWord true adv) q = .next (some 0) := by
  simp [cellEdge, resetReg]

@[simp] theorem cellEdge_hold (t : PinTable) (q : Option Nat) : cellEdge t (innerWord false false) q = .next q := by
  simp [cellEdge]

@[simp] theorem cellEdge_adv (t : PinTable) (q : Option Nat) :
    cellEdge t (innerWord false true) q = advanceReg t q := by
  simp [cellEdge]

theorem membersEdge_reset {ts : List PinTable} {qs : List (Option Nat)} (hl : qs.length = ts.length) (adv : Bit) :
    membersEdge (innerWord true adv) ts qs = .next (List.replicate ts.length (some 0)) := by
  induction ts generalizing qs with
  | nil => obtain rfl := List.length_eq_zero_iff.1 hl; rfl
  | cons t ts ih =>
    cases qs with
    | nil => cases hl
    | cons q qs => simp [membersEdge, ih (Nat.succ.inj hl), List.replicate_succ]

theorem membersEdge_hold {ts : List PinTable} {qs : List (Option Nat)} (hl : qs.length = ts.length) :
    membersEdge (innerWord false false) ts qs = .next qs := by
  induction ts generalizing qs with
  | nil => obtain rfl := List.length_eq_zero_iff.1 hl; rfl
  | cons t ts ih =>
    cases qs with
    | nil => cases hl
    | cons q qs => simp [membersEdge, ih (Nat.succ.inj hl)]

theorem membersEdge_adv {ts : List PinTable} {qs : List (Option Nat)} (h : membersAll inRange ts qs = true) :
    membersEdge (innerWord false true) ts qs = .next (List.zipWith bump ts qs) := by
  rw [← advanceMembers_of_inRange h]
  clear h
  induction ts generalizing qs with
  | nil => cases qs <;> rfl
  | cons t ts ih =>
    cases qs with
    | nil => rfl
    | cons q qs => simp [membersEdge, advanceMembers, ih]

/-! ### The engine on one edge -/

/-- A reset reads no register (R71). -/
theorem engineEdge_reset {c : Cfg} {g : Positions} (hpsi : g.psi.length = c.raw.bankPsi.length)
    (hchi : g.chi.length = c.raw.bankChi.length) (process : Bit) :
    engineEdge c true process g = .next (State.resetOf c).pos := by
  simp [engineEdge, gate, driveInner, membersEdge_reset hpsi, membersEdge_reset hchi, State.resetOf]

/-- An idle reads no register and holds every cell (R71). -/
theorem engineEdge_idle {c : Cfg} {g : Positions} (hpsi : g.psi.length = c.raw.bankPsi.length)
    (hchi : g.chi.length = c.raw.bankChi.length) : engineEdge c false false g = .next g := by
  simp [engineEdge, gate, driveInner, membersEdge_hold hpsi, membersEdge_hold hchi]

/-- A process makes the simultaneous update of R107. -/
theorem engineEdge_process {c : Cfg} {g : Positions} {a b : Bit} (h : rotorsAll inRange c g = true)
    (ha : mA c g = .next a) (hb : mB c g = .next b) :
    engineEdge c false true g = .next (singleEdge c a b g) := by
  obtain ⟨hA, hB, hpsi, hchi⟩ := rotorsAll_iff.1 h
  have hpsiEdge : membersEdge (innerWord false b) c.raw.bankPsi g.psi = .next (singleEdge c a b g).psi := by
    cases b with
    | false => exact membersEdge_hold (membersAll_length hpsi)
    | true => exact membersEdge_adv hpsi
  have hBEdge : cellEdge c.raw.controlB (innerWord false a) g.controlB = .next (singleEdge c a b g).controlB := by
    cases a with
    | false => exact cellEdge_hold ..
    | true => exact (cellEdge_adv ..).trans (advanceReg_of_inRange hB)
  have hAEdge : cellEdge c.raw.controlA (innerWord false true) g.controlA = .next (singleEdge c a b g).controlA :=
    (cellEdge_adv ..).trans (advanceReg_of_inRange hA)
  have hchiEdge : membersEdge (innerWord false true) c.raw.bankChi g.chi = .next (singleEdge c a b g).chi :=
    membersEdge_adv hchi
  simp [engineEdge, gate, driveInner, ha, hb, hchiEdge, hpsiEdge, hBEdge, hAEdge, -cellEdge_adv]

/-! ### The protocol makes the simultaneous update -/

theorem advanceRotor_of_reg? {c : Cfg} {g : Positions} {r : RotorId} {t : PinTable} {q : Option Nat}
    (ht : table? c r = some t) (hq : reg? g r = some q) (hin : inRange t q = true) :
    advanceRotor c r g = .next (setReg g r (bump t q)) := by
  simp [advanceRotor, rotorOf_eq_next.2 ⟨ht, hq⟩, advanceReg_of_inRange hin]

/-- S2 writes the Psi registers alone (R105). -/
theorem gated_advanceBank_psi {c : Cfg} {g : Positions} (h : membersAll inRange c.raw.bankPsi g.psi = true) (b : Bit) :
    (if b = true then advanceBank c .psi g else .next g) =
      .next { g with psi := if b then List.zipWith bump c.raw.bankPsi g.psi else g.psi } := by
  cases b with
  | false => rfl
  | true => exact advanceBank_eq_next.2 ⟨h, rfl⟩

/-- S3 writes `controlB`'s register alone (R105). -/
theorem gated_advanceRotor_controlB {c : Cfg} {g : Positions} (h : inRange c.raw.controlB g.controlB = true) (a : Bit) :
    (if a = true then advanceRotor c .controlB g else .next g) =
      .next { g with controlB := if a then bump c.raw.controlB g.controlB else g.controlB } := by
  cases a with
  | false => rfl
  | true => exact advanceRotor_of_reg? (r := .controlB) rfl rfl h

/-- The ordered protocol equals the simultaneous update of R107: what a part reads, no part before it has written. -/
theorem stepProtocol_eq_singleEdge {c : Cfg} {g : Positions} {a b : Bit} (h : rotorsAll inRange c g = true)
    (ha : mA c g = .next a) (hb : mB c g = .next b) : stepProtocol c g = .next (singleEdge c a b g) := by
  obtain ⟨hA, hB, hpsi, -⟩ := rotorsAll_iff.1 h
  refine stepProtocol_eq_next.2 ⟨_, b, _, a, _,
    advanceBank_eq_next.2 ⟨rotorsAll_bank h .chi, rfl⟩,
    (mB_congr rfl).trans hb, gated_advanceBank_psi ?psi b,
    (mA_congr rfl).trans ha, gated_advanceRotor_controlB ?ctlB a,
    advanceRotor_of_reg? (r := .controlA) rfl rfl ?ctlA⟩
  case psi => exact hpsi
  case ctlB => exact hB
  case ctlA => exact hA

/-! ### Symbol processing -/

/-- From a ready state `ENG.PROCESS` gives the masked code and makes the protocol's update (R120). -/
theorem exec_engProcess_of_ready {s : State} {code : Nat} (h : Ready s) (hcode : code < 2 ^ s.cfg.dataW) :
    ∃ key g, deriveKey s.cfg s.pos = .next key ∧ stepProtocol s.cfg s.pos = .next g ∧
      exec (.engProcess code) s =
        .next { s with pos := g, out := .engOut s.cfg.rw (maskCode s.cfg code key) } := by
  obtain ⟨key, hkey⟩ := deriveKey_of_inRange h
  obtain ⟨g, hg, -⟩ := stepProtocol_of_inRange h
  exact ⟨key, g, hkey, hg, execEngProcess_eq_next.2 ⟨decide_eq_true hcode, key, hkey, g, hg, rfl⟩⟩

/-! ### The engine and its ports -/

theorem exec_engReset (s : State) :
    exec .engReset s = .next (withFreeResult { s with pos := (State.resetOf s.cfg).pos }) := by
  rw [← resetAll_eq s.cfg s.pos]
  rfl

/-- From a ready state a process does what the inner ports do on one edge (R71). -/
theorem exec_engProcess_eq_edge {s : State} {code : Nat} (h : Ready s) (hcode : code < 2 ^ s.cfg.dataW) :
    ∃ u, exec (.engProcess code) s = .next u ∧ engineEdge s.cfg false true s.pos = .next u.pos := by
  obtain ⟨a, ha⟩ := rotorPin_of_inRange (r := .controlA) h rfl
  obtain ⟨b, hb⟩ := rotorPin_of_inRange (r := .controlB) h rfl
  obtain ⟨_, g, -, hg, hx⟩ := exec_engProcess_of_ready h hcode
  exact ⟨_, hx, (engineEdge_process h ha hb).trans ((stepProtocol_eq_singleEdge h ha hb).symm.trans hg)⟩

/-- Settles O17: a reset and an idle need only one register per cell, a process needs each in range. -/
theorem engineEqualsItsInnerPortsOnOneEdge : Obligations.EngineEqualsItsInnerPortsOnOneEdge := by
  intro s w h
  have hlegal : Legal s := h.elim (rotorsAll_mono valuelessOrInRange_of_inRange) And.left
  obtain ⟨-, -, hpsi, hchi⟩ := rotorsAll_iff.1 hlegal
  unfold decodeEng
  cases hrst : wordRst w with
  | true => exact ⟨_, exec_engReset s, engineEdge_reset (membersAll_length hpsi) (membersAll_length hchi) _⟩
  | false =>
    cases hgo : wordGo w with
    | false => exact ⟨_, rfl, engineEdge_idle (membersAll_length hpsi) (membersAll_length hchi)⟩
    | true =>
      have hready : Ready s := by simpa [hrst, hgo] using h
      exact exec_engProcess_eq_edge hready (wordCode_lt _ w)

/-! ### The keystream -/

/-- Masking 0 gives the key, extended with zeros (R66, R70). -/
theorem maskCode_zero (c : Cfg) (key : BitVec c.k) : maskCode c 0 key = key.setWidth c.rw := by
  simp [maskCode, codeOperand, keyOperand]

/-- Settles O25: a 0 leaves the key as it is, and the result is wide enough for it. -/
theorem processZeroReturnsTheKey : Obligations.ProcessZeroReturnsTheKey := by
  intro s h
  obtain ⟨key, g, hkey, -, hx⟩ := exec_engProcess_of_ready h (Nat.two_pow_pos _)
  have hk : s.cfg.k ≤ s.cfg.rw := Nat.le_max_right ..
  refine ⟨key, _, _, hkey, hx, rfl, ?_, ?_⟩
  · rw [maskCode_zero]
    exact BitVec.toNat_setWidth_of_le hk
  · rw [maskCode_zero]
    exact (BitVec.setWidth_setWidth_of_le _ hk).trans (BitVec.setWidth_eq _)

end Sys2Proof.Machine
end

section
/-! PROOFS. The rotor cell (R80 to R84). An advance, a hold or a reset answers the state with one register written, so
any sequence of advances and holds does too: the register then holds the position plus the number of advances, modulo
the length. -/

namespace Sys2Proof.Machine

/-! ### One command at a rotor that exists -/

section Rotor

variable {s : State} {r : RotorId} {t : PinTable}

theorem portExists_rotor {c : Cfg} (ht : table? c r = some t) : portExists c (.rotor r) = true :=
  existsIn_iff_table?.2 ⟨t, ht⟩

theorem exec_rotorPin_of_getElem? {p : Nat} {pin : Bit} (ht : table? s.cfg r = some t)
    (hq : reg? s.pos r = some (some p)) (hpin : t[p]? = some pin) :
    exec (.rotorPin r) s = .next { s with out := .rotorOut r pin } :=
  execRotorPin_eq_next.2 ⟨pin, rotorPin_eq_next.2 ⟨t, p, ht, hq, hpin⟩, rfl⟩

theorem exec_rotorAdv_of_lt {p : Nat} (ht : table? s.cfg r = some t) (hq : reg? s.pos r = some (some p))
    (hp : p < t.length) :
    exec (.rotorAdv r) s = .next { s with pos := setReg s.pos r (some (nextPos t.length p)), out := .silent } :=
  execRotorAdv_eq_next.2 ⟨_, advanceRotor_eq_next.2 ⟨t, p, ht, hq, hp, rfl⟩, rfl⟩

theorem exec_rotorHold_of_reg? {q : Option Nat} (ht : table? s.cfg r = some t) (hq : reg? s.pos r = some q) :
    exec (.rotorHold r) s = .next { s with out := .silent } :=
  execRotorHold_eq_next.2 ⟨s.pos, holdRotor_eq_next.2 ⟨⟨t, q, ht, hq⟩, rfl⟩, rfl⟩

theorem exec_rotorReset_of_reg? {q : Option Nat} (ht : table? s.cfg r = some t) (hq : reg? s.pos r = some q) :
    exec (.rotorReset r) s = .next { s with pos := setReg s.pos r (some 0), out := .silent } :=
  execRotorReset_eq_next.2 ⟨_, resetRotor_eq_next.2 ⟨⟨t, q, ht, hq⟩, rfl⟩, rfl⟩

end Rotor

/-! ### A sequence of advances and holds -/

/-- Of two writes to one register the second stays. -/
theorem setReg_setReg (g : Positions) (r : RotorId) (v w : Option Nat) :
    setReg (setReg g r v) r w = setReg g r w := by
  cases r with
  | controlA => rfl
  | controlB => rfl
  | psi i => simp [setReg]
  | chi i => simp [setReg]

/-- From a valid index every sequence answers, with this one register written (R84). -/
theorem rotorCommands_eq_next {s : State} {r : RotorId} {t : PinTable} {p : Nat} (ht : table? s.cfg r = some t)
    (hq : reg? s.pos r = some (some p)) (hp : p < t.length) (cmds : List Bool) :
    ∃ u, rotorCommands r cmds s = .next u ∧ u.cfg = s.cfg ∧
      u.pos = setReg s.pos r (some ((p + cmds.count true) % t.length)) := by
  induction cmds generalizing s p with
  | nil =>
    have hzero : (p + [].count true) % t.length = p := Nat.mod_eq_of_lt hp
    exact ⟨s, rfl, rfl, by rw [hzero, setReg_reg? hq]⟩
  | cons advance cmds ih =>
    cases advance with
    | true =>
      obtain ⟨u, hrun, hcfg, hpos⟩ :=
        ih (s := { s with pos := setReg s.pos r (some (nextPos t.length p)), out := .silent }) ht
          (reg?_setReg_self hq _) (nextPos_lt (table?_length_pos ht) p)
      have hsum : (nextPos t.length p + cmds.count true) % t.length =
          (p + (true :: cmds).count true) % t.length := by
        rw [nextPos, Nat.mod_add_mod, List.count_cons_self, Nat.add_assoc, Nat.add_comm 1]
      refine ⟨u, ?_, hcfg, ?_⟩
      · rw [rotorCommands, exec_rotorAdv_of_lt ht hq hp, andThen_next, hrun]
      · rw [hpos, setReg_setReg, hsum]
    | false =>
      obtain ⟨u, hrun, hcfg, hpos⟩ := ih (s := { s with out := .silent }) ht hq hp
      refine ⟨u, ?_, hcfg, ?_⟩
      · rw [rotorCommands, exec_rotorHold_of_reg? ht hq, andThen_next, hrun]
      · rw [hpos, List.count_cons_of_ne (by decide)]

/-! ### The statements -/

/-- Settles O7: every clause reads the one register that the sequence writes. -/
theorem rotorPositionIsPeriodicInItsLength : Obligations.RotorPositionIsPeriodicInItsLength := by
  intro s r t p cmds ht hq hp
  obtain ⟨u, hrun, hcfg, hpos⟩ := rotorCommands_eq_next ht hq hp cmds
  have hreg : reg? u.pos r = some (some ((p + cmds.count true) % t.length)) := by
    rw [hpos, reg?_setReg_self hq]
  refine ⟨u, hrun, hcfg, hreg, fun pin hpin => ?pin, fun r' hr => ?others, fun hn => ?fullTurn⟩
  case pin => exact rotorPin_eq_next.2 ⟨t, _, hcfg ▸ ht, hreg, hpin⟩
  case others => rw [hpos, reg?_setReg_other hr]
  case fullTurn => rw [hpos, hn, Nat.add_mod_right, Nat.mod_eq_of_lt hp, setReg_reg? hq]

/-- Settles O3: the pin exists exactly below the length, and no operation that a port decodes is without a word. -/
theorem rotorPinDrivesThePinAtThePosition : Obligations.RotorPinDrivesThePinAtThePosition := by
  intro s r t p ht hq
  refine ⟨fun pin => exec_rotorPin_of_getElem? ht hq, fun hp => ⟨_, List.getElem?_eq_getElem hp⟩,
    fun hp => ?fault, rfl, fun cmd hd => ?noWord⟩
  case fault => simp [exec, execRotorPin, rotorPin_of_length_le ht hq hp]
  case noWord =>
    obtain ⟨w, hw⟩ := encode_of_decode hd
    cases hw

/-- Settles O4: the advance writes the rotor's own register. -/
theorem rotorAdvMovesOnByOneModuloTheLength : Obligations.RotorAdvMovesOnByOneModuloTheLength := by
  intro s r t p ht hq hp
  exact ⟨decode_encode (portExists_rotor ht) rfl, nextPos_eq hp, _, exec_rotorAdv_of_lt ht hq hp,
    reg?_setReg_self hq _, fun _ hr => reg?_setReg_other hr _⟩

/-- Settles O5: a register written with its own content is unchanged, whatever the content. -/
theorem rotorHoldChangesNoRegister : Obligations.RotorHoldChangesNoRegister := by
  intro s r t q ht hq
  exact ⟨decode_encode (portExists_rotor ht) rfl, exec_rotorHold_of_reg? ht hq⟩

/-- Settles O6: the reset writes the rotor's own register without reading it, and every table has a first pin. -/
theorem rotorResetPutsThePositionToZero : Obligations.RotorResetPutsThePositionToZero := by
  intro s r t q ht hq
  have hport : portExists s.cfg (.rotor r) = true := portExists_rotor ht
  have hreg : reg? (setReg s.pos r (some 0)) r = some (some 0) := reg?_setReg_self hq _
  have hN : 0 < t.length := table?_length_pos ht
  have hfirst : t[0]? = some t[0] := List.getElem?_eq_getElem hN
  have hword : 0b11 < 2 ^ portWidth s.cfg (.rotor r) := by simp [portWidth]
  exact ⟨decode_encode hport rfl, decode_reset hport hword (by decide), _, exec_rotorReset_of_reg? ht hq, hreg,
    ⟨_, hfirst, rotorPin_eq_next.2 ⟨t, 0, ht, hreg, hfirst⟩⟩, fun _ hr => reg?_setReg_other hr _⟩

end Sys2Proof.Machine
end

section
/-! PROOFS. The rotor bank (R90 to R93). A read of the bank is a read of its members' pins, the first of which comes to
stand highest; a write to the bank is a write of its members' registers, so the bank's advance is that of its members
one after another: none of them reads a register that another one writes. -/

namespace Sys2Proof.Machine

/-! ### The combined value, as bits and as a number -/

/-- Member `i`'s pin stands at bit `K-1-i` of the combined value (R90). -/
theorem getLsbD_of_bankComb_eq_next {c : Cfg} {g : Positions} {b : BankId} {v : BitVec c.k} {i p : Nat} {t : PinTable}
    {pin : Bit} (h : bankComb c g b = .next v) (ht : (bankTables c b)[i]? = some t)
    (hq : (bankRegs g b)[i]? = some (some p)) (hpin : t[p]? = some pin) : v.getLsbD (c.k - 1 - i) = pin := by
  obtain ⟨pins, hpins, rfl⟩ := bankComb_eq_next.1 h
  obtain ⟨-, hlen, hread⟩ := memberPins_eq_next.1 hpins
  obtain ⟨pin', hi, hcur⟩ := hread i t _ ht hq
  obtain rfl : pin' = pin := by
    have hcur' := currentPin_eq_next.2 ⟨p, rfl, hpin⟩
    exact Host.Outcome.next.inj (hcur.symm.trans hcur')
  obtain ⟨hlt, rfl⟩ := List.getElem?_eq_some_iff.1 hi
  have hk : pins.length = c.k := hlen.trans (bankTables_length c b)
  have hbit := packPins_getLsbD (Nat.le_of_eq hk) hlt
  rwa [hk] at hbit

/-- One turn of the aggregator's loop shifts the pin in from the right (R90). -/
theorem packPins_append_eq_shiftConcat (k : Nat) (pins : List Bit) (pin : Bit) :
    packPins k (pins ++ [pin]) = (packPins k pins).shiftConcat pin := by
  rw [packPins_append]
  refine BitVec.eq_of_getLsbD_eq fun i hi => ?_
  cases i with
  | zero => simp [hi]
  | succ i => simp [hi]

theorem packPins_toNat_lt {k : Nat} {pins : List Bit} (hk : pins.length ≤ k) :
    (packPins k pins).toNat < 2 ^ pins.length := by
  induction pins using List.reverseRecOn with
  | nil => simp [packPins]
  | append_singleton pins pin ih =>
    rw [List.length_append, List.length_singleton] at hk ⊢
    rw [packPins_append_eq_shiftConcat]
    exact BitVec.toNat_shiftConcat_lt_of_lt hk (ih (Nat.le_of_succ_le hk))

/-- As long as the pins fit, no turn of the loop loses a bit: the shift and or is `2 * acc + pin` (R90). -/
theorem packPins_toNat {k : Nat} {pins : List Bit} (hk : pins.length ≤ k) :
    (packPins k pins).toNat = pins.foldl (fun acc pin => 2 * acc + pin.toNat) 0 := by
  induction pins using List.reverseRecOn with
  | nil => simp [packPins]
  | append_singleton pins pin ih =>
    rw [List.length_append, List.length_singleton] at hk
    have hle : pins.length ≤ k := Nat.le_of_succ_le hk
    rw [packPins_append_eq_shiftConcat, BitVec.toNat_shiftConcat_eq_of_lt hk (packPins_toNat_lt hle), ih hle,
      Nat.mul_comm, List.foldl_concat]

/-- Settles O8: the value is that of the loop over `K` pins, and no operation that a port decodes is without a word. -/
theorem bankCombPacksPinsMostSignificantFirst : Obligations.BankCombPacksPinsMostSignificantFirst := by
  intro s b h
  obtain ⟨pins, hpins⟩ := memberPins_of_inRange h
  have hcomb : bankComb s.cfg s.pos b = .next (packPins s.cfg.k pins) := bankComb_eq_next.2 ⟨pins, hpins, rfl⟩
  have hk : pins.length ≤ s.cfg.k := by
    obtain ⟨-, hlen, -⟩ := memberPins_eq_next.1 hpins
    exact Nat.le_of_eq (hlen.trans (bankTables_length s.cfg b))
  obtain ⟨-, hnoWord, -⟩ := decodeOfEncodeIsTheOperation
  exact ⟨⟨packPins s.cfg.k pins, execBankComb_eq_next.2 ⟨_, hcomb, rfl⟩,
    fun _ _ _ _ => getLsbD_of_bankComb_eq_next hcomb, pins, hpins, packPins_toNat hk⟩, rfl, hnoWord s.cfg _ rfl⟩

/-! ### A write to the whole bank -/

theorem exec_bankAdv_of_inRange {s : State} {b : BankId}
    (h : membersAll inRange (bankTables s.cfg b) (bankRegs s.pos b) = true) :
    exec (.bankAdv b) s =
      .next { s with
        pos := setBankRegs s.pos b (List.zipWith bump (bankTables s.cfg b) (bankRegs s.pos b)), out := .silent } :=
  execBankAdv_eq_next.2 ⟨_, advanceBank_eq_next.2 ⟨h, rfl⟩, rfl⟩

theorem bankRegs_resetBank (c : Cfg) (b : BankId) (g : Positions) :
    bankRegs (resetBank c b g) b = List.replicate c.k (some 0) := by
  rw [resetBank, bankRegs_setBankRegs, List.map_const', bankTables_length, resetReg]

/-- Settles O9: the bank's registers are written with those of `bump`, one for each member. -/
theorem bankAdvMovesEveryMember : Obligations.BankAdvMovesEveryMember := by
  intro s b h
  refine ⟨decode_encode rfl rfl, _, exec_bankAdv_of_inRange h, ?length, fun i t p ht hq => ?member,
    setBankRegs_controlA .., setBankRegs_controlB .., fun _ hb => bankRegs_setBankRegs_other hb _⟩
  case length => rw [bankRegs_setBankRegs, List.length_zipWith, membersAll_length h, Nat.min_self]
  case member =>
    rw [bankRegs_setBankRegs, List.getElem?_zipWith_eq_some]
    exact ⟨t, some p, ht, hq, rfl⟩

/-- Settles O11: a bank written with its own registers is unchanged, whatever they hold. -/
theorem bankHoldChangesNoRegister : Obligations.BankHoldChangesNoRegister :=
  fun _ _ => ⟨decode_encode rfl rfl, execBankHold_eq_next.2 rfl⟩

/-- Settles O12: the reset writes every member without reading it, and position 0 is a valid index of each. -/
theorem bankResetPutsEveryMemberToZero : Obligations.BankResetPutsEveryMemberToZero := by
  intro s b
  have hregs := bankRegs_resetBank s.cfg b s.pos
  have hin : membersAll inRange (bankTables s.cfg b) (bankRegs (resetBank s.cfg b s.pos) b) = true := by
    rw [hregs, ← bankTables_length s.cfg b]
    exact membersAll_inRange_replicate_zero (bankTables_length_pos s.cfg b)
  obtain ⟨v, hv⟩ := bankComb_of_inRange hin
  have hword : 0b11 < 2 ^ portWidth s.cfg (.bank b) := by simp [portWidth]
  refine ⟨decode_encode rfl rfl, decode_reset rfl hword (by decide), _, execBankReset_eq_next.2 rfl, hregs,
    ⟨v, hv, fun i t pin ht hpin => ?firstPin⟩, setBankRegs_controlA .., setBankRegs_controlB ..,
    fun _ hb => bankRegs_setBankRegs_other hb _⟩
  case firstPin =>
    have hi : i < s.cfg.k := bankTables_length s.cfg b ▸ (List.getElem?_eq_some_iff.1 ht).1
    have hq : (bankRegs (resetBank s.cfg b s.pos) b)[i]? = some (some 0) := by
      rw [hregs, List.getElem?_replicate_of_lt hi]
    exact getLsbD_of_bankComb_eq_next hv ht hq hpin

/-! ### The members one after another -/

/-- The rotor `b[i]` (R2, R8). -/
def bankMember : BankId → Nat → RotorId
  | .psi, i => .psi i
  | .chi, i => .chi i

theorem table?_bankMember (c : Cfg) (b : BankId) (i : Nat) : table? c (bankMember b i) = (bankTables c b)[i]? := by
  cases b <;> rfl

theorem reg?_bankMember (g : Positions) (b : BankId) (i : Nat) : reg? g (bankMember b i) = (bankRegs g b)[i]? := by
  cases b <;> rfl

theorem setReg_bankMember (g : Positions) (b : BankId) (i : Nat) (v : Option Nat) :
    setReg g (bankMember b i) v = setBankRegs g b ((bankRegs g b).set i v) := by
  cases b <;> rfl

/-- Of two writes to one bank the second stays. -/
theorem setBankRegs_setBankRegs (g : Positions) (b : BankId) (qs qs' : List (Option Nat)) :
    setBankRegs (setBankRegs g b qs) b qs' = setBankRegs g b qs' := by
  cases b <;> rfl

theorem bankTables_ne_nil (c : Cfg) (b : BankId) : bankTables c b ≠ [] := by
  have hk : 0 < (bankTables c b).length := bankTables_length c b ▸ c.wf.1
  exact List.ne_nil_of_length_pos hk

theorem advMembersInOrder_succ (b : BankId) (i n : Nat) (s : State) :
    advMembersInOrder b i (n + 1) s =
      andThen (exec (.rotorAdv (bankMember b i)) s) (advMembersInOrder b (i + 1) n) := by
  cases b <;> rfl

section Loop

variable {s : State} {b : BankId} {i : Nat} {t : PinTable} {ts ts' : List PinTable} {q : Option Nat}
  {qs qs' : List (Option Nat)}

/-- `ROTOR.ADV` on the member behind the first `i` bumps its register alone (R81). -/
theorem exec_rotorAdv_bankMember (hts : bankTables s.cfg b = ts ++ t :: ts') (hqs : bankRegs s.pos b = qs ++ q :: qs')
    (hi : ts.length = i) (hi' : qs.length = i) (hq : inRange t q = true) :
    exec (.rotorAdv (bankMember b i)) s =
      .next { s with pos := setBankRegs s.pos b (qs ++ bump t q :: qs'), out := .silent } := by
  have htable : table? s.cfg (bankMember b i) = some t := by simp [table?_bankMember, hts, ← hi]
  have hreg : reg? s.pos (bankMember b i) = some q := by simp [reg?_bankMember, hqs, ← hi']
  have hset : setReg s.pos (bankMember b i) (bump t q) = setBankRegs s.pos b (qs ++ bump t q :: qs') := by
    simp [setReg_bankMember, hqs, ← hi']
  exact execRotorAdv_eq_next.2 ⟨_, hset ▸ advanceRotor_of_reg? htable hreg hq, rfl⟩

/-- The loop of R91 from member `i` on bumps that member and those behind it, and leaves the first `i` as they are. -/
theorem advMembersInOrder_of_inRange (hts : bankTables s.cfg b = ts ++ t :: ts')
    (hqs : bankRegs s.pos b = qs ++ q :: qs') (hi : ts.length = i) (hi' : qs.length = i)
    (h : membersAll inRange (t :: ts') (q :: qs') = true) :
    advMembersInOrder b i (ts'.length + 1) s =
      .next { s with pos := setBankRegs s.pos b (qs ++ List.zipWith bump (t :: ts') (q :: qs')), out := .silent } := by
  induction ts' generalizing s i t ts q qs qs' with
  | nil =>
    obtain ⟨hq, hnil⟩ := Bool.and_eq_true_iff.1 h
    obtain rfl : qs' = [] := List.length_eq_zero_iff.1 (membersAll_length hnil)
    rw [advMembersInOrder_succ, exec_rotorAdv_bankMember hts hqs hi hi' hq]
    rfl
  | cons t' ts' ih =>
    obtain ⟨hq, hrest⟩ := Bool.and_eq_true_iff.1 h
    cases qs' with
    | nil => cases hrest
    | cons q' qs' =>
      have hrun := ih (s := { s with pos := setBankRegs s.pos b (qs ++ bump t q :: q' :: qs'), out := .silent })
        (i := i + 1) (ts := ts ++ [t]) (qs := qs ++ [bump t q]) (by simpa using hts) (by simp) (by simpa using hi)
        (by simpa using hi') hrest
      rw [advMembersInOrder_succ, exec_rotorAdv_bankMember hts hqs hi hi' hq, andThen_next, List.length_cons, hrun,
        setBankRegs_setBankRegs, List.append_assoc]
      rfl

end Loop

/-- Settles O10: the loop starts before the first member, and there is one (R10). -/
theorem bankAdvEqualsMemberLoopInIndexOrder : Obligations.BankAdvEqualsMemberLoopInIndexOrder := by
  intro s b h
  obtain ⟨t, ts, hts⟩ := List.exists_cons_of_ne_nil (bankTables_ne_nil s.cfg b)
  have hk : s.cfg.k = ts.length + 1 := by rw [← bankTables_length s.cfg b, hts, List.length_cons]
  rw [exec_bankAdv_of_inRange h, hk, hts]
  rw [hts] at h
  cases hqs : bankRegs s.pos b with
  | nil => rw [hqs] at h; cases h
  | cons q qs => exact advMembersInOrder_of_inRange (ts := []) (qs := []) hts hqs rfl rfl (hqs ▸ h)

end Sys2Proof.Machine
end

section
/-! PROOFS. The key (R100): it is read off the two banks alone, and each of its bits off two members. -/

namespace Sys2Proof.Machine

/-- Settles O13: the combined values come from the banks alone, and the exclusive or acts on each bit. -/
theorem engKeyIsPsiXorChi : Obligations.EngKeyIsPsiXorChi := by
  intro s hpsi hchi
  obtain ⟨psiComb, hpsiComb⟩ := bankComb_of_inRange (b := .psi) hpsi
  obtain ⟨chiComb, hchiComb⟩ := bankComb_of_inRange (b := .chi) hchi
  have hkey : deriveKey s.cfg s.pos = .next (psiComb ^^^ chiComb) :=
    deriveKey_eq_next.2 ⟨psiComb, chiComb, hpsiComb, hchiComb, rfl⟩
  obtain ⟨-, hnoWord, -⟩ := decodeOfEncodeIsTheOperation
  refine ⟨⟨psiComb, chiComb, execBankComb_eq_next.2 ⟨_, hpsiComb, rfl⟩, execBankComb_eq_next.2 ⟨_, hchiComb, rfl⟩,
    execEngKey_eq_next.2 ⟨_, hkey, rfl⟩, fun i tp tc p q x y htp htc hp hq hx hy => ?bit⟩, rfl, hnoWord s.cfg _ rfl⟩
  case bit =>
    have hpsiBit : psiComb.getLsbD (s.cfg.k - 1 - i) = x := getLsbD_of_bankComb_eq_next hpsiComb htp hp hx
    have hchiBit : chiComb.getLsbD (s.cfg.k - 1 - i) = y := getLsbD_of_bankComb_eq_next hchiComb htc hq hy
    rw [BitVec.getLsbD_xor, hpsiBit, hchiBit]

end Sys2Proof.Machine
end

section
/-! PROOFS. One `ENG.STEP` (R105 to R108): the four parts in their order, the simultaneous update they make, and the
truth table that the update gives for each rotor. -/

namespace Sys2Proof.Machine

/-- From a ready state with the control pins `a` and `b`, `ENG.STEP` is the simultaneous update (R107). -/
theorem exec_engStep_of_ready {s : State} {a b : Bit} (h : Ready s) (ha : mA s.cfg s.pos = .next a)
    (hb : mB s.cfg s.pos = .next b) :
    exec .engStep s = .next { s with pos := singleEdge s.cfg a b s.pos, out := .silent } :=
  execEngStep_eq_next.2 ⟨_, stepProtocol_eq_singleEdge h ha hb, rfl⟩

/-- Settles O15: a ready engine's control pins can be read, and the protocol makes the update they enable. -/
theorem engStepEqualsSingleEdgeUpdate : Obligations.EngStepEqualsSingleEdgeUpdate := by
  intro s h
  obtain ⟨a, ha⟩ := rotorPin_of_inRange (r := .controlA) h rfl
  obtain ⟨b, hb⟩ := rotorPin_of_inRange (r := .controlB) h rfl
  exact ⟨a, b, ha, hb, exec_engStep_of_ready h ha hb⟩

/-! ### The truth table -/

theorem getElem?_zipWith_bump {ts : List PinTable} {qs : List (Option Nat)} {i p : Nat} {t : PinTable}
    (ht : ts[i]? = some t) (hq : qs[i]? = some (some p)) :
    (List.zipWith bump ts qs)[i]? = some (some ((p + 1) % t.length)) :=
  List.getElem?_zipWith_eq_some.2 ⟨t, some p, ht, hq, rfl⟩

/-- Settles O16: the simultaneous update, rotor by rotor. -/
theorem engStepTruthTable : Obligations.EngStepTruthTable := by
  intro s a b h ha hb
  refine ⟨_, exec_engStep_of_ready h ha hb, fun r t p ht hq => ?_⟩
  cases r with
  | controlA =>
    cases ht
    exact congrArg (Option.map (bump _)) hq
  | controlB =>
    cases ht
    cases a with
    | false => exact hq
    | true => exact congrArg (Option.map (bump _)) hq
  | psi i =>
    cases b with
    | false => exact hq
    | true => exact getElem?_zipWith_bump ht hq
  | chi i => exact getElem?_zipWith_bump ht hq

/-! ### The four parts -/

/-- A bank's advance behind a pin, as the operation: it runs where the pin is 1, else nothing happens (R105). -/
theorem exec_bankAdv_of_gated {s : State} {bank : BankId} {b : Bit} {g : Positions} (hout : s.out = .silent)
    (h : (if b = true then advanceBank s.cfg bank s.pos else .next s.pos) = .next g) :
    if b = true then exec (.bankAdv bank) s = .next { s with pos := g } else { s with pos := g } = s := by
  cases b with
  | false => cases h; rfl
  | true => exact execBankAdv_eq_next.2 ⟨g, h, by rw [← hout]⟩

/-- A rotor's advance behind a pin, as the operation (R105). -/
theorem exec_rotorAdv_of_gated {s : State} {r : RotorId} {a : Bit} {g : Positions} (hout : s.out = .silent)
    (h : (if a = true then advanceRotor s.cfg r s.pos else .next s.pos) = .next g) :
    if a = true then exec (.rotorAdv r) s = .next { s with pos := g } else { s with pos := g } = s := by
  cases a with
  | false => cases h; rfl
  | true => exact execRotorAdv_eq_next.2 ⟨g, h, by rw [← hout]⟩

/-- A bank's advance writes no control rotor, so no control pin changes (R106). -/
theorem advanceBank_keeps_controls {c : Cfg} {bank : BankId} {g g' : Positions} (h : advanceBank c bank g = .next g') :
    g'.controlA = g.controlA ∧ g'.controlB = g.controlB := by
  obtain ⟨-, rfl⟩ := advanceBank_eq_next.1 h
  exact ⟨setBankRegs_controlA .., setBankRegs_controlB ..⟩

/-- Settles O14: the parts of the protocol are those of the operations, and no bank's advance changes a control
pin. -/
theorem engStepRunsTheFourPartsInOrder : Obligations.EngStepRunsTheFourPartsInOrder := by
  intro s h
  obtain ⟨-, hnoWord, -⟩ := decodeOfEncodeIsTheOperation
  obtain ⟨g, hg, -⟩ := stepProtocol_of_inRange h
  obtain ⟨g1, b, g2, a, g3, hchi, hb, hpsi, ha, hB, hA⟩ := stepProtocol_eq_next.1 hg
  obtain ⟨hA1, hB1⟩ := advanceBank_keeps_controls hchi
  have hA2 : g2.controlA = g1.controlA := by
    cases b with
    | false => cases hpsi; rfl
    | true => exact (advanceBank_keeps_controls hpsi).1
  exact ⟨⟨{ s with pos := g1, out := .silent }, { s with pos := g2, out := .silent },
    { s with pos := g3, out := .silent }, { s with pos := g, out := .silent }, a, b,
    execBankAdv_eq_next.2 ⟨g1, hchi, rfl⟩,
    hb, (mB_congr hB1).symm.trans hb, exec_bankAdv_of_gated (s := { s with pos := g1, out := .silent }) rfl hpsi,
    ha, (mA_congr (hA2.trans hA1)).symm.trans ha,
    exec_rotorAdv_of_gated (s := { s with pos := g2, out := .silent }) rfl hB,
    execRotorAdv_eq_next.2 ⟨g, hA, rfl⟩, execEngStep_eq_next.2 ⟨g, hg, rfl⟩⟩, rfl, hnoWord s.cfg _ rfl⟩

end Sys2Proof.Machine
end

section
/-! PROOFS. The positions along a sequence of words (R110, R112). A word moves the positions by its two low bits alone:
a reset, one turn of the protocol, or nothing. Without resets the positions are an iterate of the protocol, and from
reset the `t`-th iterate is the closed form at `t`. -/

namespace Sys2Proof.Machine

/-! ### One word -/

/-- What a word whose two low bits are the number `low` makes of the positions (R62): reset them, move them by one turn
of the protocol, or keep them. -/
def wordMove (c : Cfg) (g : Positions) (low : Nat) : Positions :=
  if 2 ≤ low then (State.resetOf c).pos else if low = 1 then protocolMove c g else g

/-- The engine's three operations, by the number that the two low bits make (R62). -/
theorem decodeEng_eq {c : Cfg} {w : Nat} (hw : wordFits c w) :
    decodeEng c.dataW (BitVec.ofNat _ w) =
      if 2 ≤ w % 4 then .engReset else if w % 4 = 1 then .engProcess (w / 4) else .engIdle := by
  have hbits : decodeEng c.dataW (BitVec.ofNat _ w) =
      if w.testBit 1 then .engReset else if w.testBit 0 then .engProcess (w / 4) else .engIdle :=
    decodeAt_eq (p := .eng) hw
  rw [hbits]
  by_cases hrst : 2 ≤ w % 4
  · rw [if_pos hrst, if_pos ((testBit_one_iff w).2 hrst)]
  · rw [if_neg hrst, if_neg (mt (testBit_one_iff w).1 hrst)]
    have hgo : w.testBit 0 = true ↔ w % 4 = 1 := by
      rw [Nat.testBit_zero, decide_eq_true_iff]
      omega
    simp only [hgo]

/-- The code field of the word has no part in it (R112 (d)). -/
theorem pos_of_step_oneWord {s t : State} {w : Nat} (h : step { s with inputs := [w] } = .next t) :
    t.cfg = s.cfg ∧ t.pos = wordMove s.cfg s.pos (w % 4) := by
  obtain ⟨hw, hx⟩ := step_oneWord.1 h
  rw [decodeEng_eq hw] at hx
  unfold wordMove
  split at hx
  case isTrue hrst =>
    obtain rfl := execEngReset_eq_next.1 hx
    exact ⟨rfl, (resetAll_eq ..).trans (if_pos hrst).symm⟩
  case isFalse hrst =>
    rw [if_neg hrst]
    split at hx
    case isTrue hgo =>
      obtain ⟨-, _, -, g, hg, rfl⟩ := execEngProcess_eq_next.1 hx
      exact ⟨rfl, (protocolMove_of_next hg).symm.trans (if_pos hgo).symm⟩
    case isFalse hgo =>
      obtain rfl := execEngIdle_eq_next.1 hx
      exact ⟨rfl, (if_neg hgo).symm⟩

/-! ### A sequence of words -/

/-- The positions at the end of a run are a function of the positions at its start and of the words' low bits. -/
theorem pos_of_runWords {s u : State} {ws results : List Nat} (h : runWords s ws = some (results, u)) :
    u.pos = (ws.map (· % 4)).foldl (wordMove s.cfg) s.pos := by
  induction ws generalizing s results with
  | nil =>
    rw [runWords_nil] at h
    cases h
    rfl
  | cons w ws ih =>
    obtain ⟨t, rest, hstep, hrun, -⟩ := runWords_cons.1 h
    obtain ⟨hcfg, hpos⟩ := pos_of_step_oneWord hstep
    rw [ih hrun, hcfg, hpos]
    rfl

/-- Settles O29: two sequences that differ in their code fields alone have the same low bits. -/
theorem codesDoNotInfluenceTheStepping : Obligations.CodesDoNotInfluenceTheStepping := by
  intro s u1 u2 ws1 ws2 r1 r2 hlow hrun1 hrun2
  have hmap : ws1.map (· % 4) = ws2.map (· % 4) := by
    rw [← List.forall₂_eq_eq_eq, List.forall₂_map_left_iff, List.forall₂_map_right_iff]
    exact hlow
  rw [pos_of_runWords hrun1, pos_of_runWords hrun2, hmap]

/-- From a ready state every sequence of words that the port can carry runs to its end (R127). -/
theorem runWords_of_ready {s : State} {ws : List Nat} (h : Ready s) (hws : ∀ w ∈ ws, wordFits s.cfg w) :
    ∃ results u, runWords s ws = some (results, u) := by
  induction ws generalizing s with
  | nil => exact ⟨[], s, runWords_nil s⟩
  | cons w ws ih =>
    rw [List.forall_mem_cons] at hws
    obtain ⟨hw, hrest⟩ := hws
    obtain ⟨t, hx, -⟩ := engineEqualsItsInnerPortsOnOneEdge { s with inputs := [] } (BitVec.ofNat _ w) (.inl h)
    have hstep : step { s with inputs := [w] } = .next t := step_oneWord.2 ⟨hw, hx⟩
    have ht : Ready t := step_keeps_ready (s := { s with inputs := [w] }) h hstep
    obtain ⟨hcfg, -⟩ := pos_of_step_oneWord hstep
    obtain ⟨results, u, hrun⟩ := ih ht (hcfg ▸ hrest)
    exact ⟨_, u, runWords_cons.2 ⟨t, results, hstep, hrun, rfl⟩⟩

/-- Without resets each `ENG.PROCESS` is one turn of the protocol, and idle words do not count (R110). -/
theorem foldl_wordMove_of_noReset (c : Cfg) (g : Positions) {ws : List Nat} (hws : ∀ w ∈ ws, w % 4 < 2) :
    (ws.map (· % 4)).foldl (wordMove c) g = (protocolMove c)^[ws.countP (· % 4 == 1)] g := by
  induction ws generalizing g with
  | nil => rfl
  | cons w ws ih =>
    rw [List.forall_mem_cons] at hws
    obtain ⟨hw, hrest⟩ := hws
    rw [List.map_cons, List.foldl_cons, ih _ hrest]
    obtain hidle | hprocess : w % 4 = 0 ∨ w % 4 = 1 := by omega
    · simp [wordMove, hidle]
    · simp [wordMove, hprocess]

/-! ### The closed forms -/

theorem closedForm_zero (c : Cfg) : closedForm c 0 = (State.resetOf c).pos := by
  simp [closedForm, cB, cPsi, countBelow, State.resetOf]

theorem cB_succ {c : Cfg} {t : Nat} {a : Bit} (ha : c.raw.controlA[t % c.raw.controlA.length]? = some a) :
    cB c (t + 1) = cB c t + a.toNat := by
  cases a <;> simp [cB, countBelow, ha]

theorem cPsi_succ {c : Cfg} {t : Nat} {b : Bit} (hb : c.raw.controlB[cB c t % c.raw.controlB.length]? = some b) :
    cPsi c (t + 1) = cPsi c t + b.toNat := by
  cases b <;> simp [cPsi, countBelow, hb]

theorem mA_closedForm {c : Cfg} {t : Nat} {a : Bit} (ha : c.raw.controlA[t % c.raw.controlA.length]? = some a) :
    mA c (closedForm c t) = .next a :=
  rotorPin_eq_next.2 ⟨_, _, rfl, rfl, ha⟩

theorem mB_closedForm {c : Cfg} {t : Nat} {b : Bit} (hb : c.raw.controlB[cB c t % c.raw.controlB.length]? = some b) :
    mB c (closedForm c t) = .next b :=
  rotorPin_eq_next.2 ⟨_, _, rfl, rfl, hb⟩

/-- Moving on by one adds to the count under the modulus. -/
theorem bump_mod (tbl : PinTable) (n : Nat) : bump tbl (some (n % tbl.length)) = some ((n + 1) % tbl.length) :=
  congrArg some (Nat.mod_add_mod ..)

theorem zipWith_bump_map_mod (ts : List PinTable) (n : Nat) :
    List.zipWith bump ts (ts.map fun tbl => some (n % tbl.length)) = ts.map fun tbl => some ((n + 1) % tbl.length) := by
  simp [List.zipWith_map_right, List.zipWith_self, bump_mod]

/-- One update takes the closed form at `t` to the one at `t + 1`: a gated group's count grows by its pin (R110). -/
theorem singleEdge_closedForm {c : Cfg} {t : Nat} {a b : Bit}
    (ha : c.raw.controlA[t % c.raw.controlA.length]? = some a)
    (hb : c.raw.controlB[cB c t % c.raw.controlB.length]? = some b) :
    singleEdge c a b (closedForm c t) = closedForm c (t + 1) := by
  simp only [singleEdge, closedForm, cB_succ ha, cPsi_succ hb, bump_mod, zipWith_bump_map_mod]
  congr 1
  · cases a <;> rfl
  · cases b <;> rfl

/-- From reset the positions after `t` turns of the protocol are the closed form at `t` (R110). -/
theorem protocolMove_iterate_resetOf (c : Cfg) (t : Nat) :
    (protocolMove c)^[t] (State.resetOf c).pos = closedForm c t := by
  induction t with
  | zero => exact (closedForm_zero c).symm
  | succ t ih =>
    have hin : rotorsAll inRange c (closedForm c t) = true :=
      ih ▸ protocolMove_iterate_keeps_inRange (ready_resetOf c) t
    obtain ⟨a, ha⟩ : ∃ a, c.raw.controlA[t % c.raw.controlA.length]? = some a :=
      ⟨_, List.getElem?_eq_getElem (Nat.mod_lt _ (table?_length_pos (c := c) (r := .controlA) rfl))⟩
    obtain ⟨b, hb⟩ : ∃ b, c.raw.controlB[cB c t % c.raw.controlB.length]? = some b :=
      ⟨_, List.getElem?_eq_getElem (Nat.mod_lt _ (table?_length_pos (c := c) (r := .controlB) rfl))⟩
    rw [Function.iterate_succ_apply', ih,
      protocolMove_of_next (stepProtocol_eq_singleEdge hin (mA_closedForm ha) (mB_closedForm hb)),
      singleEdge_closedForm ha hb]

/-- Settles O18: the run makes as many turns of the protocol as it has `ENG.PROCESS` words. -/
theorem positionsFollowTheClosedForms : Obligations.PositionsFollowTheClosedForms := by
  intro c ws hws
  obtain ⟨results, u, hrun⟩ := runWords_of_ready (ready_resetOf c) fun w hw => (hws w hw).1
  have hpos : u.pos = closedForm c (ws.countP (· % 4 == 1)) := by
    rw [pos_of_runWords hrun, resetOf_cfg, foldl_wordMove_of_noReset c _ fun w hw => (hws w hw).2,
      protocolMove_iterate_resetOf]
  exact ⟨results, u, hrun, hpos, fun _ ha => hpos ▸ mA_closedForm ha, fun _ hb => hpos ▸ mB_closedForm hb⟩

end Sys2Proof.Machine
end

section
/-! PROOFS. The engine's operations on one state (R120 to R122, R126, R128): what the words select, the result as a
number and bit by bit, and what each operation does before the first reset. -/

namespace Sys2Proof.Machine

/-! ### The words of the engine -/

/-- The operation that a word selects, by the number that its two low bits make (R62). -/
theorem decode_eng_of_wordFits {c : Cfg} {w : Nat} (hw : wordFits c w) :
    decode c ⟨.eng, w⟩ =
      .ok (if 2 ≤ w % 4 then .engReset else if w % 4 = 1 then .engProcess (w / 4) else .engIdle) := by
  rw [decode_eng hw, decodeEng_eq hw]

/-- The code field, whatever stands in the two bits below it, fits the port (R61). -/
theorem wordFits_of_code {c : Cfg} {code low : Nat} (hcode : code < 2 ^ c.dataW) (hlow : low < 4) :
    wordFits c (4 * code + low) := by
  rw [wordFits, Nat.pow_add]
  omega

/-- Settles O22: the idle meaning answers at once, and a word with both low bits 0 selects it. -/
theorem engIdleWritesNoPosition : Obligations.EngIdleWritesNoPosition :=
  fun _ => ⟨⟨_, rfl⟩, fun _ hw hidle => by simp [decode_eng_of_wordFits hw, hidle]⟩

/-! ### Before the first reset -/

/-- The first member of a bank is read first, and there is one (R10). -/
theorem deriveKey_atPowerOn {s : State} (h : AtPowerOn s) : deriveKey s.cfg s.pos = .refused .beforeReset := by
  obtain ⟨t, ts, hts⟩ := List.exists_cons_of_ne_nil (bankTables_ne_nil s.cfg .psi)
  have hregs : bankRegs s.pos .psi = List.replicate (bankTables s.cfg .psi).length none := by rw [h]; rfl
  have hpins : memberPins (bankTables s.cfg .psi) (bankRegs s.pos .psi) = .refused .beforeReset := by
    rw [hregs, hts]
    rfl
  simp [deriveKey, bankComb, hpins]

theorem exec_engProcess_atPowerOn {s : State} {code : Nat} (h : AtPowerOn s) (hcode : code < 2 ^ s.cfg.dataW) :
    exec (.engProcess code) s = .refused .beforeReset := by
  have hfits : codeFits s.cfg code = true := decide_eq_true hcode
  simp [exec, execEngProcess, hfits, deriveKey_atPowerOn h]

/-- Settles O24: a process reads the key first, an idle writes no register and a reset writes them all. -/
theorem beforeTheFirstResetOnlyResetGivesAState : Obligations.BeforeTheFirstResetOnlyResetGivesAState :=
  fun s h =>
    ⟨fun _ hcode => exec_engProcess_atPowerOn h hcode, ⟨_, rfl, h⟩, ⟨_, exec_engReset s, ready_resetOf s.cfg⟩⟩

/-! ### The result of `ENG.PROCESS` -/

/-- Settles O20: the key and the positions after are those that `ENG.KEY` and `ENG.STEP` give for the same state. -/
theorem engProcessMasksWithTheKeyBeforeAndThenSteps : Obligations.EngProcessMasksWithTheKeyBeforeAndThenSteps := by
  intro s code hcode
  refine ⟨?processWord, ?resetToo, fun h => ?ready, fun h => exec_engProcess_atPowerOn h hcode⟩
  case processWord => exact (decode_eng (wordFits_processWord hcode)).trans (congrArg _ (decodeEng_processWord hcode))
  case resetToo =>
    have hrst : 2 ≤ (4 * code + 0b11) % 4 := by omega
    rw [decode_eng_of_wordFits (wordFits_of_code hcode (by decide)), if_pos hrst]
  case ready =>
    obtain ⟨key, g, hkey, hg, hx⟩ := exec_engProcess_of_ready h hcode
    exact ⟨key, _, execEngKey_eq_next.2 ⟨key, hkey, rfl⟩, execEngStep_eq_next.2 ⟨g, hg, rfl⟩, hx⟩

/-- As numbers the result is the exclusive or: neither operand is cut at the result's width (R121). -/
theorem maskCode_toNat {c : Cfg} {code : Nat} (hcode : code < 2 ^ c.dataW) (key : BitVec c.k) :
    (maskCode c code key).toNat = code ^^^ key.toNat := by
  have hcodeOp : (codeOperand c code).toNat = code := by
    have hle : c.dataW ≤ c.rw := Nat.le_max_left ..
    rw [codeOperand, BitVec.toNat_setWidth_of_le hle, BitVec.toNat_ofNat, Nat.mod_eq_of_lt hcode]
  have hkeyOp : (keyOperand c key).toNat = key.toNat := BitVec.toNat_setWidth_of_le (Nat.le_max_right ..)
  rw [maskCode, BitVec.toNat_xor, hcodeOp, hkeyOp]

/-- Above its own width an operand has only zeros, so the bits of the result are one exclusive or throughout. -/
theorem maskCode_getLsbD {c : Cfg} {code : Nat} (hcode : code < 2 ^ c.dataW) (key : BitVec c.k) (j : Nat) :
    (maskCode c code key).getLsbD j = Bool.xor (code.testBit j) (key.getLsbD j) := by
  rw [← BitVec.testBit_toNat, maskCode_toNat hcode, Nat.testBit_xor, BitVec.testBit_toNat]

/-- Settles O21: where one operand has no bit, the exclusive or is the other's. -/
theorem resultBitsForEveryPairOfWidths : Obligations.ResultBitsForEveryPairOfWidths := by
  intro s code h hcode
  obtain ⟨key, g, hkey, -, hx⟩ := exec_engProcess_of_ready h hcode
  have hbit := maskCode_getLsbD hcode key
  refine ⟨key, _, maskCode s.cfg code key, hkey, hx, rfl, fun j _ => hbit j, fun j hj _ => ?aboveKey,
    fun j hj _ => ?aboveCode, maskCode_toNat hcode key⟩
  case aboveKey => exact (hbit j).trans (by rw [BitVec.getLsbD_of_ge key j hj, Bool.xor_false])
  case aboveCode =>
    have hzero : code.testBit j = false := Nat.testBit_lt_two_pow (hcode.trans_le (Nat.pow_le_pow_right (by decide) hj))
    exact (hbit j).trans (by rw [hzero, Bool.false_xor])

/-! ### One step of the machine -/

/-- A step is an idle where no word is left, and else the operation of the word taken, with the rest still queued. -/
theorem exec_eng_of_step {s t : State} (h : step s = .next t) :
    exec .engIdle { s with inputs := s.inputs.tail } = .next t ∨
    exec .engReset { s with inputs := s.inputs.tail } = .next t ∨
    ∃ code, exec (.engProcess code) { s with inputs := s.inputs.tail } = .next t := by
  obtain ⟨hs, hx⟩ | ⟨w, rest, i, hs, hd, hx⟩ := step_eq_next.1 h
  · have htail : s.inputs.tail = s.inputs := by rw [hs, List.tail_nil]
    rw [htail]
    exact .inl hx
  · rw [hs, List.tail_cons]
    obtain rfl | rfl | rfl := eq_of_decode_eq_ok hd
    · exact .inr (.inl hx)
    · exact .inr (.inr ⟨_, hx⟩)
    · exact .inl hx

/-- Settles O34: what each of the three operations writes is in its meaning. -/
theorem everyStepIsIdleResetOrProcess : Obligations.EveryStepIsIdleResetOrProcess := by
  intro s t h
  obtain hx | hx | ⟨code, hx⟩ := exec_eng_of_step h
  · obtain rfl := execEngIdle_eq_next.1 hx
    exact .inl ⟨hx, rfl⟩
  · obtain rfl := execEngReset_eq_next.1 hx
    exact .inr (.inl ⟨hx, resetAll_eq ..⟩)
  · obtain ⟨hfits, key, hkey, g, -, rfl⟩ := execEngProcess_eq_next.1 hx
    exact .inr (.inr ⟨code, key, of_decide_eq_true hfits, hx, hkey, rfl⟩)

end Sys2Proof.Machine
end

section
/-! PROOFS. What a host gets back for a sequence of words (R124, R125, R127). The result of a word is a function of the
configuration, the positions and the word, as the positions after it are; so two runs that agree in these agree
throughout, and one that is fed the other's results masks them with the same keys. -/

namespace Sys2Proof.Machine

/-! ### One word -/

/-- The result that the word `w` gives at the positions `g`: the masked code where `w` asks for `ENG.PROCESS` and the
key can be read, else none (R65, R120). -/
def wordResult (c : Cfg) (g : Positions) (w : Nat) : List Nat :=
  if w % 4 = 1 then
    match deriveKey c g with
    | .next key  => [(maskCode c (w / 4) key).toNat]
    | .fault _   => []
    | .refused _ => []
  else []

theorem wordResult_of_not_process (c : Cfg) (g : Positions) {w : Nat} (hw : w % 4 ≠ 1) :
    wordResult c g w = [] := if_neg hw

theorem wordResult_of_process {c : Cfg} {g : Positions} {w : Nat} {key : BitVec c.k} (hw : w % 4 = 1)
    (hkey : deriveKey c g = .next key) : wordResult c g w = [(maskCode c (w / 4) key).toNat] := by
  simp [wordResult, hw, hkey]

/-- A result is a number of `RW` bits (R9). -/
theorem lt_of_mem_wordResult {c : Cfg} {g : Positions} {w r : Nat} (h : r ∈ wordResult c g w) : r < 2 ^ c.rw := by
  unfold wordResult at h
  split at h
  · split at h
    · rw [List.mem_singleton.1 h]
      exact BitVec.isLt _
    all_goals cases h
  · cases h

/-- What the state at hand last returned or drew has no part in the result (R125). -/
theorem resultOfStep_oneWord {s t : State} {w : Nat} (h : step { s with inputs := [w] } = .next t) :
    resultOfStep s.cfg w t = wordResult s.cfg s.pos w := by
  obtain ⟨hw, hx⟩ := step_oneWord.1 h
  rw [decodeEng_eq hw] at hx
  unfold resultOfStep
  rw [decode_eng_of_wordFits hw]
  by_cases hrst : 2 ≤ w % 4
  · rw [if_pos hrst, wordResult_of_not_process _ _ (by omega)]
  · rw [if_neg hrst] at hx ⊢
    by_cases hgo : w % 4 = 1
    · rw [if_pos hgo] at hx ⊢
      obtain ⟨-, key, hkey, g, -, rfl⟩ := execEngProcess_eq_next.1 hx
      exact (wordResult_of_process hgo hkey).symm
    · rw [if_neg hgo, wordResult_of_not_process _ _ hgo]

/-- Only `ENG.PROCESS` reads the positions, and it reads them all. -/
theorem exists_step_oneWord_iff {s : State} {w : Nat} :
    (∃ t, step { s with inputs := [w] } = .next t) ↔ wordFits s.cfg w ∧ (w % 4 = 1 → Ready s) := by
  simp only [step_oneWord, exists_and_left]
  refine and_congr_right fun hw => ?_
  rw [decodeEng_eq hw]
  by_cases hrst : 2 ≤ w % 4
  · rw [if_pos hrst]
    exact ⟨fun _ hgo => by omega, fun _ => ⟨_, rfl⟩⟩
  · rw [if_neg hrst]
    by_cases hgo : w % 4 = 1
    · rw [if_pos hgo]
      have hcode : w / 4 < 2 ^ s.cfg.dataW := by rw [wordFits, Nat.pow_add] at hw; omega
      refine ⟨fun ⟨_, hx⟩ _ => ready_of_execEngProcess_eq_next (s := { s with inputs := [] }) hx, fun h => ?_⟩
      obtain ⟨_, _, -, -, hx⟩ := exec_engProcess_of_ready (s := { s with inputs := [] }) (h hgo) hcode
      exact ⟨_, hx⟩
    · rw [if_neg hgo]
      exact ⟨fun _ h => absurd h hgo, fun _ => ⟨_, rfl⟩⟩

/-! ### A run to its end -/

theorem runWords_keeps_ready {s u : State} {ws results : List Nat} (h : Ready s)
    (hrun : runWords s ws = some (results, u)) : Ready u := by
  induction ws generalizing s results with
  | nil =>
    rw [runWords_nil] at hrun
    cases hrun
    exact h
  | cons w ws ih =>
    obtain ⟨t, rest, hstep, hrest, -⟩ := runWords_cons.1 hrun
    exact ih (step_keeps_ready (s := { s with inputs := [w] }) h hstep) hrest

/-- A step that answers gives one result for `ENG.PROCESS`, whose key it read, and none else. -/
theorem length_resultOfStep {s t : State} {w : Nat} (h : step { s with inputs := [w] } = .next t) :
    (resultOfStep s.cfg w t).length = if w % 4 = 1 then 1 else 0 := by
  rw [resultOfStep_oneWord h]
  split
  case isTrue hgo =>
    obtain ⟨-, hready⟩ := exists_step_oneWord_iff.1 ⟨t, h⟩
    obtain ⟨key, hkey⟩ := deriveKey_of_inRange (hready hgo)
    rw [wordResult_of_process hgo hkey, List.length_singleton]
  case isFalse hgo => rw [wordResult_of_not_process _ _ hgo, List.length_nil]

theorem length_of_runWords {s u : State} {ws results : List Nat} (h : runWords s ws = some (results, u)) :
    results.length = ws.countP (· % 4 == 1) := by
  induction ws generalizing s results with
  | nil =>
    rw [runWords_nil] at h
    cases h
    rfl
  | cons w ws ih =>
    obtain ⟨t, rest, hstep, hrun, rfl⟩ := runWords_cons.1 h
    rw [List.length_append, length_resultOfStep hstep, ih hrun, List.countP_cons, Nat.add_comm]
    simp only [beq_iff_eq]

/-- The state that the word `RESET` leaves. -/
def afterReset (s : State) : State :=
  withFreeResult { s with inputs := [], pos := (State.resetOf s.cfg).pos }

@[simp] theorem afterReset_cfg (s : State) : (afterReset s).cfg = s.cfg := rfl
@[simp] theorem afterReset_pos (s : State) : (afterReset s).pos = (State.resetOf s.cfg).pos := rfl

theorem ready_afterReset (s : State) : Ready (afterReset s) := ready_resetOf s.cfg

theorem wordFits_resetWord (c : Cfg) : wordFits c resetWord :=
  wordFits_of_code (code := 0) (low := 2) (Nat.two_pow_pos _) (by decide)

theorem step_resetWord (s : State) : step { s with inputs := [resetWord] } = .next (afterReset s) := by
  refine step_oneWord.2 ⟨wordFits_resetWord s.cfg, ?_⟩
  rw [decodeEng_eq (wordFits_resetWord s.cfg)]
  exact exec_engReset { s with inputs := [] }

/-- A reset gives no result, and what follows it runs from the state it leaves (R155). -/
theorem runWords_resetWord_cons {s u : State} {ws results : List Nat}
    (h : runWords (afterReset s) ws = some (results, u)) : runWords s (resetWord :: ws) = some (results, u) := by
  refine runWords_cons.2 ⟨_, results, step_resetWord s, h, ?_⟩
  rw [resultOfStep_oneWord (step_resetWord s), wordResult_of_not_process _ _ (by decide), List.nil_append]

/-- A run from a ready state has an end, its states stay ready and its words give their results (R127). -/
theorem runWords_of_ready_result {s : State} {ws : List Nat} (h : Ready s) (hws : ∀ w ∈ ws, wordFits s.cfg w) :
    ∃ results u, runWords s ws = some (results, u) ∧ Ready u ∧ results.length = ws.countP (· % 4 == 1) := by
  obtain ⟨results, u, hrun⟩ := runWords_of_ready h hws
  exact ⟨results, u, hrun, runWords_keeps_ready h hrun, length_of_runWords hrun⟩

/-- Settles O32: the word `RESET` leaves a ready state, whatever it came to, and gives no result of its own. -/
theorem everyWordSequenceRunsToItsEnd : Obligations.EveryWordSequenceRunsToItsEnd := by
  refine ⟨fun _ _ h hws => runWords_of_ready_result h hws, fun s ws hws => ?_⟩
  obtain ⟨results, u, hrun, hend⟩ := runWords_of_ready_result (ready_afterReset s) hws
  exact ⟨results, u, runWords_resetWord_cons hrun, hend⟩

/-! ### Equal positions give equal results -/

/-- Two engines in the same positions stay so, word by word (R125). -/
theorem runWords_congr {s1 s2 u1 : State} {ws results : List Nat} (hcfg : s1.cfg = s2.cfg) (hpos : s1.pos = s2.pos)
    (h : runWords s1 ws = some (results, u1)) :
    ∃ u2, runWords s2 ws = some (results, u2) ∧ u2.pos = u1.pos ∧ u2.cfg = u1.cfg := by
  induction ws generalizing s1 s2 results with
  | nil =>
    rw [runWords_nil] at h
    cases h
    exact ⟨s2, runWords_nil s2, hpos.symm, hcfg.symm⟩
  | cons w ws ih =>
    obtain ⟨t1, rest, hstep1, hrun1, rfl⟩ := runWords_cons.1 h
    obtain ⟨t2, hstep2⟩ : ∃ t2, step { s2 with inputs := [w] } = .next t2 := by
      have hanswers := exists_step_oneWord_iff.1 ⟨t1, hstep1⟩
      rw [Ready, hcfg, hpos] at hanswers
      exact exists_step_oneWord_iff.2 hanswers
    obtain ⟨hcfg1, hpos1⟩ := pos_of_step_oneWord hstep1
    obtain ⟨hcfg2, hpos2⟩ := pos_of_step_oneWord hstep2
    have hresult : resultOfStep s1.cfg w t1 = resultOfStep s2.cfg w t2 := by
      rw [resultOfStep_oneWord hstep1, resultOfStep_oneWord hstep2, hcfg, hpos]
    obtain ⟨u2, hrun2, hu⟩ := ih (s2 := t2) (by rw [hcfg1, hcfg2, hcfg]) (by rw [hpos1, hpos2, hcfg, hpos]) hrun1
    exact ⟨u2, runWords_cons.2 ⟨t2, rest, hstep2, hrun2, by rw [hresult]⟩, hu⟩

/-- An idle word gives no result and leaves the positions, so the run without it is the same (R122, R125). -/
theorem runWords_filter_idle {s u : State} {ws results : List Nat} (h : runWords s ws = some (results, u)) :
    ∃ u', runWords s (ws.filter fun w => !isIdleWord w) = some (results, u') ∧ u'.pos = u.pos := by
  induction ws generalizing s results with
  | nil => exact ⟨u, h, rfl⟩
  | cons w ws ih =>
    obtain ⟨t, rest, hstep, hrun, rfl⟩ := runWords_cons.1 h
    obtain ⟨u', hrun', hu'⟩ := ih hrun
    cases hidle : isIdleWord w with
    | false =>
      rw [List.filter_cons_of_pos (by simp [hidle])]
      exact ⟨u', runWords_cons.2 ⟨t, rest, hstep, hrun', rfl⟩, hu'⟩
    | true =>
      have hw : w % 4 = 0 := beq_iff_eq.1 hidle
      obtain ⟨hcfg, hpos⟩ := pos_of_step_oneWord hstep
      have hstay : t.pos = s.pos := by rw [hpos, hw]; rfl
      obtain ⟨u'', hrun'', hu'', -⟩ := runWords_congr hcfg hstay hrun'
      rw [List.filter_cons_of_neg (by simp [hidle]), resultOfStep_oneWord hstep,
        wordResult_of_not_process _ _ (by omega), List.nil_append]
      exact ⟨u'', hrun'', hu''.trans hu'⟩

/-- Settles O27: the second engine makes the first's run, and leaving out idle words changes no run. -/
theorem sameConfigurationAndPositionsGiveTheSameResults :
    Obligations.SameConfigurationAndPositionsGiveTheSameResults := by
  intro s1 s2 u1 ws results hcfg hpos hrun
  obtain ⟨u2, hrun2, hu2, hcfg2⟩ := runWords_congr hcfg hpos hrun
  obtain ⟨u3, hrun3, hu3⟩ := runWords_filter_idle hrun2
  exact ⟨⟨u2, hrun2, hu2, hcfg2⟩, u3, hrun3, hu3.trans hu2⟩

/-! ### Masking twice with the same key -/

/-- The low bits of a code masked, cut to its width and masked again are the code (R124). -/
theorem xor_xor_mod_two_pow {n code : Nat} (hcode : code < 2 ^ n) (key : Nat) :
    (((code ^^^ key) % 2 ^ n) ^^^ key) % 2 ^ n = code := by
  calc (((code ^^^ key) % 2 ^ n) ^^^ key) % 2 ^ n
      = code % 2 ^ n ^^^ key % 2 ^ n ^^^ key % 2 ^ n := by
        rw [Nat.xor_mod_two_pow, Nat.mod_mod, Nat.xor_mod_two_pow]
    _ = code := by rw [Nat.xor_assoc, Nat.xor_self, Nat.xor_zero, Nat.mod_eq_of_lt hcode]

/-- The word `PROCESS code` at positions whose key is `key` gives the exclusive or of the two (R120, R121). -/
theorem step_processWord_of_key {s : State} {c : Cfg} {g : Positions} {key : BitVec c.k} {code : Nat}
    (hcfg : s.cfg = c) (hpos : s.pos = g) (h : rotorsAll inRange c g = true) (hkey : deriveKey c g = .next key)
    (hcode : code < 2 ^ c.dataW) :
    ∃ t, step { s with inputs := [processWord code] } = .next t ∧ t.cfg = c ∧ t.pos = protocolMove c g ∧
      resultOfStep s.cfg (processWord code) t = [code ^^^ key.toNat] := by
  subst hcfg hpos
  obtain ⟨t, hstep, hcfg, hg⟩ := step_processWord_of_ready h hcode
  have hgo : processWord code % 4 = 1 := by rw [processWord]; omega
  have hfield : processWord code / 4 = code := by rw [processWord]; omega
  refine ⟨t, hstep, hcfg, (protocolMove_of_next hg).symm, ?_⟩
  rw [resultOfStep_oneWord hstep, wordResult_of_process hgo hkey, hfield, maskCode_toNat hcode]

/-- The two engines go through the same positions, so the second masks each result with the key that made it. -/
theorem runWords_recovers {s1 s2 : State} {codes : List Nat} (hcfg : s1.cfg = s2.cfg) (hpos : s1.pos = s2.pos)
    (h : Ready s1) (hcodes : ∀ code ∈ codes, code < 2 ^ s1.cfg.dataW) :
    ∃ sent u1 back u2,
      runWords s1 (codes.map processWord) = some (sent, u1) ∧
      runWords s2 ((sent.map (· % 2 ^ s1.cfg.dataW)).map processWord) = some (back, u2) ∧
      back.map (· % 2 ^ s1.cfg.dataW) = codes := by
  induction codes generalizing s1 s2 with
  | nil => exact ⟨[], s1, [], s2, runWords_nil s1, runWords_nil s2, rfl⟩
  | cons code codes ih =>
    rw [List.forall_mem_cons] at hcodes
    obtain ⟨hcode, hrest⟩ := hcodes
    obtain ⟨key, hkey⟩ := deriveKey_of_inRange h
    obtain ⟨t1, hstep1, hcfg1, hpos1, hresult1⟩ := step_processWord_of_key rfl rfl h hkey hcode
    obtain ⟨t2, hstep2, hcfg2, hpos2, hresult2⟩ := step_processWord_of_key hcfg.symm hpos.symm h hkey
      (Nat.mod_lt (code ^^^ key.toNat) (Nat.two_pow_pos s1.cfg.dataW))
    have ht1 : Ready t1 := step_keeps_ready (s := { s1 with inputs := [processWord code] }) h hstep1
    obtain ⟨sent, u1, back, u2, hrun1, hrun2, hback⟩ :=
      ih (hcfg1.trans hcfg2.symm) (hpos1.trans hpos2.symm) ht1 (hcfg1.symm ▸ hrest)
    rw [hcfg1] at hrun2 hback
    refine ⟨(code ^^^ key.toNat) :: sent, u1, _ :: back, u2,
      runWords_cons.2 ⟨t1, sent, hstep1, hrun1, by rw [hresult1]; rfl⟩,
      runWords_cons.2 ⟨t2, back, hstep2, hrun2, by rw [hresult2]; rfl⟩, ?_⟩
    rw [List.map_cons, hback, xor_xor_mod_two_pow hcode]

/-- Every result of a run is a number of `RW` bits (R9). -/
theorem lt_of_mem_results {s u : State} {ws results : List Nat} (h : runWords s ws = some (results, u)) :
    ∀ r ∈ results, r < 2 ^ s.cfg.rw := by
  induction ws generalizing s results with
  | nil =>
    rw [runWords_nil] at h
    cases h
    exact List.forall_mem_nil _
  | cons w ws ih =>
    obtain ⟨t, rest, hstep, hrun, rfl⟩ := runWords_cons.1 h
    obtain ⟨hcfg, -⟩ := pos_of_step_oneWord hstep
    intro r hr
    obtain hr | hr := List.mem_append.1 hr
    · exact lt_of_mem_wordResult (resultOfStep_oneWord hstep ▸ hr)
    · exact hcfg ▸ ih hrun r hr

/-- Where the code input is no narrower than the key, cutting the results to it changes none (R121, R124). -/
theorem map_mod_results {s u : State} {ws results : List Nat} (h : runWords s ws = some (results, u))
    (hk : s.cfg.k ≤ s.cfg.dataW) : results.map (· % 2 ^ s.cfg.dataW) = results := by
  have hrw : s.cfg.rw = s.cfg.dataW := Nat.max_eq_left hk
  have hlt := lt_of_mem_results h
  rw [hrw] at hlt
  exact (List.map_congr_left fun r hr => Nat.mod_eq_of_lt (hlt r hr)).trans (List.map_id results)

/-- Settles O26: a reset puts both engines into the same positions, from which the second recovers the codes; with no
result cut, what it returns is what its low bits are. -/
theorem enginesFedEachOthersResultsRecoverTheMessage :
    Obligations.EnginesFedEachOthersResultsRecoverTheMessage := by
  intro s1 s2 codes hcfg hcodes
  have hcfg' : (afterReset s1).cfg = (afterReset s2).cfg := hcfg
  have hpos' : (afterReset s1).pos = (afterReset s2).pos := by rw [afterReset_pos, hcfg, afterReset_pos]
  obtain ⟨sent, u1, back, u2, hrun1, hrun2, hback⟩ := runWords_recovers hcfg' hpos' (ready_afterReset s1) hcodes
  refine ⟨sent, u1, back, u2, runWords_resetWord_cons hrun1, runWords_resetWord_cons hrun2, hback, fun hk => ?_⟩
  have huncut : back.map (· % 2 ^ s1.cfg.dataW) = back := by
    rw [hcfg] at hk ⊢
    exact map_mod_results (s := afterReset s2) hrun2 hk
  exact ⟨map_mod_results (s := afterReset s1) hrun1 hk, huncut.symm.trans hback⟩

end Sys2Proof.Machine
end

section
/-! PROOFS. A ready engine never stops (R127, R137): every register is in range, so whatever an operation reads answers. -/

namespace Sys2Proof.Machine

/-- Each meaning answers where what it reads does: the rotors it names exist, and their registers are in range. -/
theorem exec_answers_of_ready {i : Instr} {s : State} (h : Ready s) (hwf : i.wf s.cfg = true) :
    ∃ t, exec i s = .next t := by
  cases i with
  | rotorPin r =>
    obtain ⟨_, ht⟩ := existsIn_iff_table?.1 hwf
    obtain ⟨pin, hpin⟩ := rotorPin_of_inRange h ht
    exact ⟨_, execRotorPin_eq_next.2 ⟨pin, hpin, rfl⟩⟩
  | rotorAdv r =>
    obtain ⟨_, ht⟩ := existsIn_iff_table?.1 hwf
    obtain ⟨g, hg, -⟩ := advanceRotor_of_inRange h ht
    exact ⟨_, execRotorAdv_eq_next.2 ⟨g, hg, rfl⟩⟩
  | rotorHold r =>
    obtain ⟨_, ht⟩ := existsIn_iff_table?.1 hwf
    obtain ⟨_, hq⟩ := rotorsAll_reg?_exists h ht
    exact ⟨_, exec_rotorHold_of_reg? ht hq⟩
  | rotorReset r =>
    obtain ⟨_, ht⟩ := existsIn_iff_table?.1 hwf
    obtain ⟨_, hq⟩ := rotorsAll_reg?_exists h ht
    exact ⟨_, exec_rotorReset_of_reg? ht hq⟩
  | bankComb b =>
    obtain ⟨v, hv⟩ := bankComb_of_inRange (rotorsAll_bank h b)
    exact ⟨_, execBankComb_eq_next.2 ⟨v, hv, rfl⟩⟩
  | bankAdv b => exact ⟨_, exec_bankAdv_of_inRange (rotorsAll_bank h b)⟩
  | bankHold b => exact ⟨_, rfl⟩
  | bankReset b => exact ⟨_, rfl⟩
  | engKey =>
    obtain ⟨key, hkey⟩ := deriveKey_of_inRange h
    exact ⟨_, execEngKey_eq_next.2 ⟨key, hkey, rfl⟩⟩
  | engStep =>
    obtain ⟨g, hg, -⟩ := stepProtocol_of_inRange h
    exact ⟨_, execEngStep_eq_next.2 ⟨g, hg, rfl⟩⟩
  | engProcess code =>
    obtain ⟨_, _, -, -, hx⟩ := exec_engProcess_of_ready h (of_decide_eq_true hwf)
    exact ⟨_, hx⟩
  | engIdle => exact ⟨_, rfl⟩
  | engReset => exact ⟨_, rfl⟩

/-- A word that the port carries decodes to an operation that the configuration has, so the step answers (R67). -/
theorem step_answers_of_ready {s : State} (h : Ready s) (hwords : WordsFit s) : ∃ t, step s = .next t := by
  cases hs : s.inputs with
  | nil =>
    rw [step_of_inputs_nil hs]
    exact exec_answers_of_ready h rfl
  | cons w rest =>
    have hd := decode_eng (hwords w (hs ▸ List.mem_cons_self))
    rw [step_of_decode_eq_ok hs hd]
    exact exec_answers_of_ready (s := { s with inputs := rest }) h (decode_wf hd)

/-- A step keeps the configuration and takes one word off the queue. -/
theorem step_frame {s t : State} (h : step s = .next t) : t.cfg = s.cfg ∧ t.inputs = s.inputs.tail := by
  obtain hx | hx | ⟨code, hx⟩ := exec_eng_of_step h <;>
    · obtain ⟨hcfg, hinputs, -⟩ := frameOfEveryOperation _ _ _ hx
      exact ⟨hcfg, hinputs⟩

theorem step_keeps_wordsFit {s t : State} (hwords : WordsFit s) (h : step s = .next t) : WordsFit t := by
  obtain ⟨hcfg, hinputs⟩ := step_frame h
  intro w hw
  rw [hcfg]
  exact hwords w (List.mem_of_mem_tail (hinputs ▸ hw))

/-- Settles O31: a ready state answers, and what it answers with is ready by the invariant of R22. -/
theorem readyEngineNeverStops : Obligations.ReadyEngineNeverStops := by
  refine ⟨fun s h hwords => ?step, fun i s h hwf => ?operation⟩
  case step =>
    obtain ⟨t, ht⟩ := step_answers_of_ready h hwords
    exact ⟨t, ht, step_keeps_ready h ht, step_keeps_wordsFit hwords ht⟩
  case operation =>
    obtain ⟨t, ht⟩ := exec_answers_of_ready h hwf
    exact ⟨t, ht, exec_keeps_ready h ht⟩

end Sys2Proof.Machine
end

section
/-! PROOFS. No command raises `InvalidConfiguration` (R135): what an operation reads answers, faults or is refused for
another reason. -/

namespace Sys2Proof.Machine

/-! ### Sequencing -/

/-- The answer is not `InvalidConfiguration`. -/
def NotInvalidConfiguration {α : Type} (x : Answer α) : Prop := ∀ cause, x ≠ .refused (.invalidConfiguration cause)

theorem notInvalidConfiguration_next {α : Type} (a : α) : NotInvalidConfiguration (.next a : Answer α) := nofun

theorem andThen_notInvalidConfiguration {α β : Type} {x : Answer α} {f : α → Answer β}
    (hx : NotInvalidConfiguration x) (hf : ∀ a, NotInvalidConfiguration (f a)) :
    NotInvalidConfiguration (andThen x f) := by
  cases x with
  | next a => exact hf a
  | fault e => exact nofun
  | refused e =>
    intro cause h
    cases h
    exact hx cause rfl

/-- An answer used only to make a value of it. -/
theorem andThen_next_notInvalidConfiguration {α β : Type} {x : Answer α} {f : α → β}
    (hx : NotInvalidConfiguration x) : NotInvalidConfiguration (andThen x fun a => .next (f a)) :=
  andThen_notInvalidConfiguration hx fun _ => notInvalidConfiguration_next _

theorem gated_notInvalidConfiguration {α : Type} {b : Bit} {x : Answer α} {a : α} (hx : NotInvalidConfiguration x) :
    NotInvalidConfiguration (if b = true then x else .next a) := by
  cases b with
  | false => exact notInvalidConfiguration_next a
  | true => exact hx

/-! ### What a read refuses -/

/-- A register without a value is refused as such (R128). -/
theorem readPos_notInvalidConfiguration (t : PinTable) (q : Option Nat) : NotInvalidConfiguration (readPos t q) := by
  cases q with
  | none => exact nofun
  | some p =>
    rw [readPos]
    split
    · exact nofun
    · exact nofun

theorem currentPin_notInvalidConfiguration (t : PinTable) (q : Option Nat) :
    NotInvalidConfiguration (currentPin t q) := by
  refine andThen_notInvalidConfiguration (readPos_notInvalidConfiguration t q) fun p => ?_
  unfold pinRead
  split
  · exact nofun
  · exact nofun

theorem advanceReg_notInvalidConfiguration (t : PinTable) (q : Option Nat) :
    NotInvalidConfiguration (advanceReg t q) :=
  andThen_next_notInvalidConfiguration (readPos_notInvalidConfiguration t q)

/-- A rotor that does not exist is refused as such (R8). -/
theorem rotorOf_notInvalidConfiguration (c : Cfg) (g : Positions) (r : RotorId) :
    NotInvalidConfiguration (rotorOf c g r) := by
  unfold rotorOf
  split
  · exact nofun
  · split
    · exact nofun
    · exact nofun

theorem rotorPin_notInvalidConfiguration (c : Cfg) (g : Positions) (r : RotorId) :
    NotInvalidConfiguration (rotorPin c g r) :=
  andThen_notInvalidConfiguration (rotorOf_notInvalidConfiguration c g r) fun _ =>
    currentPin_notInvalidConfiguration _ _

theorem advanceRotor_notInvalidConfiguration (c : Cfg) (r : RotorId) (g : Positions) :
    NotInvalidConfiguration (advanceRotor c r g) :=
  andThen_notInvalidConfiguration (rotorOf_notInvalidConfiguration c g r) fun _ =>
    andThen_next_notInvalidConfiguration (advanceReg_notInvalidConfiguration _ _)

theorem memberPins_notInvalidConfiguration (ts : List PinTable) (qs : List (Option Nat)) :
    NotInvalidConfiguration (memberPins ts qs) := by
  induction ts generalizing qs with
  | nil => cases qs <;> exact nofun
  | cons t ts ih =>
    cases qs with
    | nil => exact nofun
    | cons q qs =>
      exact andThen_notInvalidConfiguration (currentPin_notInvalidConfiguration t q) fun _ =>
        andThen_next_notInvalidConfiguration (ih qs)

theorem advanceMembers_notInvalidConfiguration (ts : List PinTable) (qs : List (Option Nat)) :
    NotInvalidConfiguration (advanceMembers ts qs) := by
  induction ts generalizing qs with
  | nil => cases qs <;> exact nofun
  | cons t ts ih =>
    cases qs with
    | nil => exact nofun
    | cons q qs =>
      exact andThen_notInvalidConfiguration (advanceReg_notInvalidConfiguration t q) fun _ =>
        andThen_next_notInvalidConfiguration (ih qs)

theorem advanceBank_notInvalidConfiguration (c : Cfg) (b : BankId) (g : Positions) :
    NotInvalidConfiguration (advanceBank c b g) :=
  andThen_next_notInvalidConfiguration (advanceMembers_notInvalidConfiguration _ _)

theorem bankComb_notInvalidConfiguration (c : Cfg) (g : Positions) (b : BankId) :
    NotInvalidConfiguration (bankComb c g b) :=
  andThen_next_notInvalidConfiguration (memberPins_notInvalidConfiguration _ _)

theorem deriveKey_notInvalidConfiguration (c : Cfg) (g : Positions) : NotInvalidConfiguration (deriveKey c g) :=
  andThen_notInvalidConfiguration (bankComb_notInvalidConfiguration c g .psi) fun _ =>
    andThen_next_notInvalidConfiguration (bankComb_notInvalidConfiguration c g .chi)

/-- The protocol is made of advances and reads of control pins (R105). -/
theorem stepProtocol_notInvalidConfiguration (c : Cfg) (g : Positions) :
    NotInvalidConfiguration (stepProtocol c g) :=
  andThen_notInvalidConfiguration (advanceBank_notInvalidConfiguration c .chi g) fun g1 =>
  andThen_notInvalidConfiguration (rotorPin_notInvalidConfiguration c g1 .controlB) fun _ =>
  andThen_notInvalidConfiguration
    (gated_notInvalidConfiguration (advanceBank_notInvalidConfiguration c .psi g1)) fun g2 =>
  andThen_notInvalidConfiguration (rotorPin_notInvalidConfiguration c g2 .controlA) fun _ =>
  andThen_notInvalidConfiguration
    (gated_notInvalidConfiguration (advanceRotor_notInvalidConfiguration c .controlB g2)) fun g3 =>
  advanceRotor_notInvalidConfiguration c .controlA g3

/-! ### The operations and the step -/

theorem execEngProcess_notInvalidConfiguration (code : Nat) (s : State) :
    NotInvalidConfiguration (execEngProcess code s) := by
  unfold execEngProcess
  split
  · exact andThen_notInvalidConfiguration (deriveKey_notInvalidConfiguration s.cfg s.pos) fun _ =>
      andThen_next_notInvalidConfiguration (stepProtocol_notInvalidConfiguration s.cfg s.pos)
  · exact nofun

/-- Each operation makes its next state of what it reads, and no read raises the exception. -/
theorem exec_notInvalidConfiguration (i : Instr) (s : State) : NotInvalidConfiguration (exec i s) := by
  cases i with
  | rotorPin r => exact andThen_next_notInvalidConfiguration (rotorPin_notInvalidConfiguration s.cfg s.pos r)
  | rotorAdv r => exact andThen_next_notInvalidConfiguration (advanceRotor_notInvalidConfiguration s.cfg r s.pos)
  | rotorHold r =>
    exact andThen_next_notInvalidConfiguration
      (andThen_next_notInvalidConfiguration (rotorOf_notInvalidConfiguration s.cfg s.pos r))
  | rotorReset r =>
    exact andThen_next_notInvalidConfiguration
      (andThen_next_notInvalidConfiguration (rotorOf_notInvalidConfiguration s.cfg s.pos r))
  | bankComb b => exact andThen_next_notInvalidConfiguration (bankComb_notInvalidConfiguration s.cfg s.pos b)
  | bankAdv b => exact andThen_next_notInvalidConfiguration (advanceBank_notInvalidConfiguration s.cfg b s.pos)
  | bankHold b => exact notInvalidConfiguration_next _
  | bankReset b => exact notInvalidConfiguration_next _
  | engKey => exact andThen_next_notInvalidConfiguration (deriveKey_notInvalidConfiguration s.cfg s.pos)
  | engStep => exact andThen_next_notInvalidConfiguration (stepProtocol_notInvalidConfiguration s.cfg s.pos)
  | engProcess code => exact execEngProcess_notInvalidConfiguration code s
  | engIdle => exact notInvalidConfiguration_next _
  | engReset => exact notInvalidConfiguration_next _

/-- A step is one operation, or the refusal of a word that is too wide. -/
theorem step_notInvalidConfiguration (s : State) : NotInvalidConfiguration (step s) := by
  cases hs : s.inputs with
  | nil =>
    rw [step_of_inputs_nil hs]
    exact exec_notInvalidConfiguration _ _
  | cons w rest =>
    cases hd : decode s.cfg ⟨.eng, w⟩ with
    | ok i =>
      rw [step_of_decode_eq_ok hs hd]
      exact exec_notInvalidConfiguration _ _
    | error e =>
      rw [step_of_decode_eq_error hs hd]
      exact nofun

end Sys2Proof.Machine
end

section
/-! PROOFS. Elaboration (R10, R135, R136): which configurations it accepts, and which cause it reports for the others,
the first empty rotor's or, where there is none, that of the banks and the width. -/

namespace Sys2Proof.Machine

/-! ### The configurations accepted -/

/-- Every rotor has a pin exactly where no table is empty (R10). -/
theorem length_pos_iff_noEmptyRotor {raw : RawCfg} :
    (∀ r t, rawTable? raw r = some t → 1 ≤ t.length) ↔ ∀ r, rawTable? raw r ≠ some [] := by
  constructor
  · intro h r hr
    exact absurd (h r [] hr) (by decide)
  · intro h r t ht
    exact List.length_pos_iff.2 fun hnil => h r (hnil ▸ ht)

/-- `WF(Cfg)` with its rotors taken by name (R10). -/
theorem wf_iff_noEmptyRotor {raw : RawCfg} :
    raw.WF ↔ 1 ≤ raw.bankPsi.length ∧ 1 ≤ raw.dataW ∧ raw.bankPsi.length = raw.bankChi.length ∧
      ∀ r, rawTable? raw r ≠ some [] := by
  rw [← length_pos_iff_noEmptyRotor]
  constructor
  · rintro ⟨hk, hlen, hw, hA, hB, hP, hC⟩
    refine ⟨hk, hw, hlen.symm, fun r t ht => ?_⟩
    exact table?_length_pos (c := ⟨raw, hk, hlen, hw, hA, hB, hP, hC⟩) ht
  · rintro ⟨hk, hw, hlen, hrotor⟩
    refine ⟨hk, hlen.symm, hw, hrotor .controlA _ rfl, hrotor .controlB _ rfl, fun t ht => ?_, fun t ht => ?_⟩
    · obtain ⟨i, hi⟩ := List.mem_iff_getElem?.1 ht
      exact hrotor (.psi i) t hi
    · obtain ⟨i, hi⟩ := List.mem_iff_getElem?.1 ht
      exact hrotor (.chi i) t hi

theorem elaborate_of_wf {raw : RawCfg} (h : raw.WF) : elaborate raw = .next (State.powerOn ⟨raw, h⟩) := dif_pos h

theorem elaborate_of_not_wf {raw : RawCfg} (h : ¬ raw.WF) :
    elaborate raw = .refused (.invalidConfiguration (configCause raw)) := dif_neg h

theorem elaborate_eq_refused {raw : RawCfg} {cause : ConfigCause} :
    elaborate raw = .refused (.invalidConfiguration cause) ↔ ¬ raw.WF ∧ configCause raw = cause := by
  by_cases h : raw.WF
  · rw [elaborate_of_wf h]
    exact ⟨nofun, fun hno => absurd h hno.1⟩
  · rw [elaborate_of_not_wf h]
    simp only [Host.Outcome.refused.injEq, Refusal.invalidConfiguration.injEq, h, not_false_eq_true, true_and]

/-- Settles O40: the conditions are `WF(Cfg)`, on which elaboration branches. -/
theorem elaborationAloneRaisesInvalidConfiguration : Obligations.ElaborationAloneRaisesInvalidConfiguration := by
  refine ⟨fun raw => ?_, exec_notInvalidConfiguration, step_notInvalidConfiguration⟩
  rw [length_pos_iff_noEmptyRotor, ← wf_iff_noEmptyRotor]
  exact ⟨fun h => ⟨⟨raw, h⟩, rfl, elaborate_of_wf h⟩, fun h => ⟨_, elaborate_of_not_wf h⟩⟩

/-! ### The first empty rotor -/

/-- The first rotor without a pin, in the order of R136. -/
def firstEmptyRotor (raw : RawCfg) : Option RotorId := (rawRotors raw).find? fun r => rawTable? raw r == some []

/-- The index of a bank's first member without a pin. -/
def firstEmptyMember (ts : List PinTable) : Option Nat :=
  (List.range ts.length).find? fun i => ts[i]? == some []

theorem firstEmptyMember_eq_some {ts : List PinTable} {i : Nat} :
    firstEmptyMember ts = some i ↔ ts[i]? = some [] ∧ ∀ j < i, ts[j]? ≠ some [] := by
  simp only [firstEmptyMember, List.find?_range_eq_some, List.mem_range, beq_iff_eq, Bool.not_eq_true',
    beq_eq_false_iff_ne]
  constructor
  · rintro ⟨hi, -, hfirst⟩
    exact ⟨hi, hfirst⟩
  · rintro ⟨hi, hfirst⟩
    exact ⟨hi, (List.getElem?_eq_some_iff.1 hi).1, hfirst⟩

theorem firstEmptyMember_eq_none {ts : List PinTable} : firstEmptyMember ts = none ↔ ∀ t ∈ ts, t ≠ [] := by
  simp only [firstEmptyMember, List.find?_eq_none, List.mem_range, beq_iff_eq]
  constructor
  · intro h t ht hnil
    obtain ⟨i, hi, rfl⟩ := List.getElem_of_mem ht
    exact h i hi ((List.getElem?_eq_getElem hi).trans (congrArg some hnil))
  · intro h i _ hi
    exact h [] (List.mem_of_getElem? hi) rfl

/-- The order of R136: A, B, the members of Psi, the members of Chi. -/
theorem firstEmptyRotor_eq (raw : RawCfg) :
    firstEmptyRotor raw =
      if raw.controlA = [] then some .controlA
      else if raw.controlB = [] then some .controlB
      else ((firstEmptyMember raw.bankPsi).map .psi).or ((firstEmptyMember raw.bankChi).map .chi) := by
  have hpsi : ((List.range raw.bankPsi.length).map RotorId.psi).find? (fun r => rawTable? raw r == some []) =
      (firstEmptyMember raw.bankPsi).map .psi := List.find?_map ..
  have hchi : ((List.range raw.bankChi.length).map RotorId.chi).find? (fun r => rawTable? raw r == some []) =
      (firstEmptyMember raw.bankChi).map .chi := List.find?_map ..
  rw [firstEmptyRotor, rawRotors, List.find?_append, List.find?_append, hpsi, hchi]
  by_cases hA : raw.controlA = []
  · simp [rawTable?, hA]
  · by_cases hB : raw.controlB = []
    · simp [rawTable?, beq_false_of_ne, hA, hB]
    · simp [rawTable?, beq_false_of_ne, hA, hB]

theorem firstEmptyRotor_eq_controlA {raw : RawCfg} :
    firstEmptyRotor raw = some .controlA ↔ raw.controlA = [] := by
  rw [firstEmptyRotor_eq]
  split_ifs <;> simp [*]

theorem firstEmptyRotor_eq_controlB {raw : RawCfg} :
    firstEmptyRotor raw = some .controlB ↔ raw.controlA ≠ [] ∧ raw.controlB = [] := by
  rw [firstEmptyRotor_eq]
  split_ifs <;> simp [*]

theorem firstEmptyRotor_eq_psi {raw : RawCfg} {i : Nat} :
    firstEmptyRotor raw = some (.psi i) ↔
      raw.controlA ≠ [] ∧ raw.controlB ≠ [] ∧ raw.bankPsi[i]? = some [] ∧ ∀ j < i, raw.bankPsi[j]? ≠ some [] := by
  rw [firstEmptyRotor_eq, ← firstEmptyMember_eq_some]
  split_ifs <;> simp [*]

theorem firstEmptyRotor_eq_chi {raw : RawCfg} {i : Nat} :
    firstEmptyRotor raw = some (.chi i) ↔
      raw.controlA ≠ [] ∧ raw.controlB ≠ [] ∧ (∀ t ∈ raw.bankPsi, t ≠ []) ∧
        raw.bankChi[i]? = some [] ∧ ∀ j < i, raw.bankChi[j]? ≠ some [] := by
  rw [firstEmptyRotor_eq, ← firstEmptyMember_eq_none, ← firstEmptyMember_eq_some]
  split_ifs <;> simp [*]

theorem mem_rawRotors {raw : RawCfg} {r : RotorId} {t : PinTable} (h : rawTable? raw r = some t) :
    r ∈ rawRotors raw := by
  cases r with
  | controlA => simp [rawRotors]
  | controlB => simp [rawRotors]
  | psi i => simpa [rawRotors] using (List.getElem?_eq_some_iff.1 h).1
  | chi i => simpa [rawRotors] using (List.getElem?_eq_some_iff.1 h).1

theorem firstEmptyRotor_eq_none {raw : RawCfg} :
    firstEmptyRotor raw = none ↔ ∀ r, rawTable? raw r ≠ some [] := by
  simp only [firstEmptyRotor, List.find?_eq_none, beq_iff_eq]
  exact ⟨fun h r hr => h r (mem_rawRotors hr) hr, fun h r _ => h r⟩

theorem rawTable?_of_firstEmptyRotor {raw : RawCfg} {r : RotorId} (h : firstEmptyRotor raw = some r) :
    rawTable? raw r = some [] :=
  beq_iff_eq.1 (List.find?_some (p := fun r => rawTable? raw r == some []) h)

/-! ### The cause reported -/

/-- The cause where every rotor has a pin: the last four rows of R136. -/
def bankCause (raw : RawCfg) : ConfigCause :=
  if raw.bankPsi = [] then .emptyBank .psi
  else if raw.bankChi = [] then .emptyBank .chi
  else if raw.bankPsi.length ≠ raw.bankChi.length then .widthMismatch
  else .badWidth

theorem bankCause_ne_emptyRotor (raw : RawCfg) (r : RotorId) : bankCause raw ≠ .emptyRotor r := by
  unfold bankCause
  split_ifs <;> exact nofun

theorem bankCause_eq_emptyBank_psi {raw : RawCfg} : bankCause raw = .emptyBank .psi ↔ raw.bankPsi = [] := by
  unfold bankCause
  split_ifs <;> simp [*]

theorem bankCause_eq_emptyBank_chi {raw : RawCfg} :
    bankCause raw = .emptyBank .chi ↔ raw.bankPsi ≠ [] ∧ raw.bankChi = [] := by
  unfold bankCause
  split_ifs <;> simp [*]

theorem bankCause_eq_widthMismatch {raw : RawCfg} :
    bankCause raw = .widthMismatch ↔
      raw.bankPsi ≠ [] ∧ raw.bankChi ≠ [] ∧ raw.bankPsi.length ≠ raw.bankChi.length := by
  unfold bankCause
  split_ifs <;> simp [*]

theorem bankCause_eq_badWidth {raw : RawCfg} :
    bankCause raw = .badWidth ↔
      raw.bankPsi ≠ [] ∧ raw.bankChi ≠ [] ∧ raw.bankPsi.length = raw.bankChi.length := by
  unfold bankCause
  split_ifs <;> simp_all

theorem configCause_of_firstEmptyRotor {raw : RawCfg} {r : RotorId} (h : firstEmptyRotor raw = some r) :
    configCause raw = .emptyRotor r := by
  rw [firstEmptyRotor] at h
  simp only [configCause, h]

theorem configCause_of_noEmptyRotor {raw : RawCfg} (h : ∀ r, rawTable? raw r ≠ some []) :
    configCause raw = bankCause raw := by
  have hnone := firstEmptyRotor_eq_none.2 h
  rw [firstEmptyRotor] at hnone
  simp only [configCause, hnone, bankCause]

/-- An empty rotor is reported exactly where it is the first, and the configuration is then ill-formed (R10). -/
theorem elaborate_eq_emptyRotor {raw : RawCfg} {r : RotorId} :
    elaborate raw = .refused (.invalidConfiguration (.emptyRotor r)) ↔ firstEmptyRotor raw = some r := by
  rw [elaborate_eq_refused]
  constructor
  · rintro ⟨-, hcause⟩
    cases hfirst : firstEmptyRotor raw with
    | some r' =>
      rw [configCause_of_firstEmptyRotor hfirst] at hcause
      cases hcause
      rfl
    | none =>
      rw [configCause_of_noEmptyRotor (firstEmptyRotor_eq_none.1 hfirst)] at hcause
      exact absurd hcause (bankCause_ne_emptyRotor raw r)
  · intro hfirst
    refine ⟨fun hwf => ?_, configCause_of_firstEmptyRotor hfirst⟩
    obtain ⟨-, -, -, hrotor⟩ := wf_iff_noEmptyRotor.1 hwf
    exact hrotor r (rawTable?_of_firstEmptyRotor hfirst)

/-- Another cause is reported exactly where no rotor is empty and the rest of `WF(Cfg)` fails (R10, R136). -/
theorem elaborate_eq_bankCause {raw : RawCfg} {cause : ConfigCause} (hne : ∀ r, cause ≠ .emptyRotor r) :
    elaborate raw = .refused (.invalidConfiguration cause) ↔
      (∀ r, rawTable? raw r ≠ some []) ∧ bankCause raw = cause ∧
        ¬ (1 ≤ raw.bankPsi.length ∧ 1 ≤ raw.dataW ∧ raw.bankPsi.length = raw.bankChi.length) := by
  rw [elaborate_eq_refused, wf_iff_noEmptyRotor]
  cases hfirst : firstEmptyRotor raw with
  | some r =>
    rw [configCause_of_firstEmptyRotor hfirst]
    exact ⟨fun h => absurd h.2.symm (hne r), fun h => absurd (rawTable?_of_firstEmptyRotor hfirst) (h.1 r)⟩
  | none =>
    have hno := firstEmptyRotor_eq_none.1 hfirst
    rw [configCause_of_noEmptyRotor hno]
    simp only [hno, ne_eq, not_false_eq_true, implies_true, true_and, and_true, and_comm (a := bankCause raw = cause)]

/-- Settles O41: the rows of empty rotors are `firstEmptyRotor`'s, the others `bankCause`'s. -/
theorem elaborationReportsTheFirstCause : Obligations.ElaborationReportsTheFirstCause := by
  intro raw cause
  cases cause with
  | emptyRotor r =>
    refine elaborate_eq_emptyRotor.trans ?_
    cases r with
    | controlA => exact firstEmptyRotor_eq_controlA
    | controlB => exact firstEmptyRotor_eq_controlB
    | psi i => exact firstEmptyRotor_eq_psi
    | chi i => exact firstEmptyRotor_eq_chi
  | emptyBank b =>
    refine (elaborate_eq_bankCause (cause := .emptyBank b) nofun).trans ?_
    cases b with
    | psi =>
      rw [bankCause_eq_emptyBank_psi]
      exact and_congr_right fun _ => and_iff_left_of_imp fun hpsi => by simp [hpsi]
    | chi =>
      rw [bankCause_eq_emptyBank_chi]
      exact and_congr_right fun _ => and_iff_left_of_imp fun ⟨hpsi, hchi⟩ => by simp [hchi, hpsi]
  | widthMismatch =>
    refine (elaborate_eq_bankCause (cause := .widthMismatch) nofun).trans ?_
    rw [bankCause_eq_widthMismatch]
    exact and_congr_right fun _ => and_iff_left_of_imp fun ⟨_, _, hlen⟩ ⟨_, _, heq⟩ => hlen heq
  | badWidth =>
    refine (elaborate_eq_bankCause (cause := .badWidth) nofun).trans (and_congr_right fun _ => ?_)
    rw [bankCause_eq_badWidth]
    constructor
    · rintro ⟨⟨hpsi, hchi, hlen⟩, hwf⟩
      have hk : 1 ≤ raw.bankPsi.length := List.length_pos_iff.2 hpsi
      exact ⟨hpsi, hchi, hlen, by omega⟩
    · rintro ⟨hpsi, hchi, hlen, hw⟩
      exact ⟨⟨hpsi, hchi, hlen⟩, by omega⟩

end Sys2Proof.Machine
end

section
/-! PROOFS. Reset (R31, R123, R155, R156, R162). The registers after a reset are those of the configuration, each
holding 0, whatever they held before: so the nets after it are made of the first pins, and a run that begins with the
word `RESET` goes on as one from the state after reset. -/

namespace Sys2Proof.Machine

/-! ### The state after reset -/

/-- The registers after reset: one for each rotor of the configuration, and no other (R20, R31). -/
theorem reg?_resetOf (c : Cfg) (r : RotorId) : reg? (State.resetOf c).pos r = (table? c r).map fun _ => some 0 := by
  cases r with
  | controlA => rfl
  | controlB => rfl
  | psi i | chi i => simp only [reg?, State.resetOf, table?, rawTable?, ← List.map_const', List.getElem?_map]

theorem reg?_resetOf_of_table? {c : Cfg} {r : RotorId} {t : PinTable} (ht : table? c r = some t) :
    reg? (State.resetOf c).pos r = some (some 0) := by
  rw [reg?_resetOf, ht, Option.map_some]

/-- Every net `pin[r]` is the table's first pin, and there is one (R10, R156). -/
theorem rotorPin_resetOf {c : Cfg} {r : RotorId} {t : PinTable} (ht : table? c r = some t) :
    ∃ pin, t[0]? = some pin ∧ rotorPin c (State.resetOf c).pos r = .next pin := by
  obtain ⟨pin, hpin⟩ := rotorPin_of_inRange (ready_resetOf c) ht
  obtain ⟨t', p, ht', hq, hp⟩ := rotorPin_eq_next.1 hpin
  obtain rfl : t = t' := Option.some.inj (ht.symm.trans ht')
  obtain rfl : 0 = p := by simpa [reg?_resetOf_of_table? ht] using hq
  exact ⟨pin, hp, hpin⟩

/-- Member `i`'s first pin stands at bit `K-1-i` of the combined value (R90, R156). -/
theorem getLsbD_of_bankComb_resetOf {c : Cfg} {b : BankId} {v : BitVec c.k} {i : Nat} {t : PinTable} {pin : Bit}
    (h : bankComb c (State.resetOf c).pos b = .next v) (ht : (bankTables c b)[i]? = some t)
    (hpin : t[0]? = some pin) : v.getLsbD (c.k - 1 - i) = pin := by
  have hq : (bankRegs (State.resetOf c).pos b)[i]? = some (some 0) := by
    rw [← reg?_bankMember]
    exact reg?_resetOf_of_table? ((table?_bankMember c b i).trans ht)
  exact getLsbD_of_bankComb_eq_next h ht hq hpin

/-- Settles O1: every register holds 0, so every net is read off the first pins. -/
theorem resetStateHasPositionsZeroAndNetsOfFirstPins :
    Obligations.ResetStateHasPositionsZeroAndNetsOfFirstPins := by
  intro c
  have hready : rotorsAll inRange c (State.resetOf c).pos = true := ready_resetOf c
  obtain ⟨psiComb, hpsi⟩ := bankComb_of_inRange (rotorsAll_bank hready .psi)
  obtain ⟨chiComb, hchi⟩ := bankComb_of_inRange (rotorsAll_bank hready .chi)
  refine ⟨resetOf_cfg c, fun r t ht => ⟨reg?_resetOf_of_table? ht, rotorPin_resetOf ht⟩,
    rotorPin_resetOf (r := .controlA) rfl, rotorPin_resetOf (r := .controlB) rfl, psiComb, chiComb, hpsi, hchi,
    deriveKey_eq_next.2 ⟨psiComb, chiComb, hpsi, hchi, rfl⟩, fun i tp tc x y htp htc hx hy => ?bits⟩
  case bits =>
    have hpsiBit : psiComb.getLsbD (c.k - 1 - i) = x := getLsbD_of_bankComb_resetOf hpsi htp hx
    have hchiBit : chiComb.getLsbD (c.k - 1 - i) = y := getLsbD_of_bankComb_resetOf hchi htc hy
    exact ⟨hpsiBit, hchiBit, by rw [BitVec.getLsbD_xor, hpsiBit, hchiBit]⟩

/-! ### The operation and the word -/

/-- Settles O23: the registers written are those after reset, and a word with `CW[1] = 1` selects it. -/
theorem engResetPutsEveryPositionToZero : Obligations.EngResetPutsEveryPositionToZero := by
  refine fun s => ⟨⟨_, (State.resetOf s.cfg).pos, exec_engReset s, fun _ _ => reg?_resetOf_of_table?, ?noOther,
    ready_resetOf s.cfg⟩, fun w hw hrst => ?word⟩
  case noOther =>
    intro r hr
    rw [reg?_resetOf, hr, Option.map_none]
  case word => rw [decode_eng_of_wordFits hw, if_pos hrst]

/-- The converse of `runWords_resetWord_cons`: the word `RESET` has no other outcome. -/
theorem runWords_afterReset {s u : State} {ws results : List Nat}
    (h : runWords s (resetWord :: ws) = some (results, u)) : runWords (afterReset s) ws = some (results, u) := by
  obtain ⟨t, rest, hstep, hrun, rfl⟩ := runWords_cons.1 h
  obtain rfl : afterReset s = t := Host.Outcome.next.inj ((step_resetWord s).symm.trans hstep)
  rwa [resultOfStep_oneWord hstep, wordResult_of_not_process _ _ (by decide), List.nil_append]

/-- Settles O28: the state that the word leaves and the state after reset have the same positions, and a run depends
on no more of its first state than these and the configuration. -/
theorem resetRestartsTheKeystream : Obligations.ResetRestartsTheKeystream := by
  intro s u ws results hrun
  obtain ⟨u', hrun', hpos, -⟩ :=
    runWords_congr (s2 := State.resetOf s.cfg) (afterReset_cfg s) (afterReset_pos s) (runWords_afterReset hrun)
  exact ⟨u', hrun', hpos⟩

end Sys2Proof.Machine
end
